-- ==== Sys2Proof/Word.lean ====
section
/-! DEFINITION. The two widths of the block: bytes (`u8`) and words (`u32`), spec/00_scope.md R10. -/

namespace Sys2Proof

/-- `u8`: a byte of a stream, of the receive buffer, of a parameter (R10). -/
abbrev Byte := BitVec 8

/-- `u32`: a word of the external space, a checksum, an address (R10). -/
abbrev Word := BitVec 32

end Sys2Proof
end

