-- ==== Sys2Proof/Config.lean ====
section
/-! DEFINITION. The parameters of spec/00_scope.md R7 as plain data, and the free values of the OPEN ones.
The values themselves (the fixed ones and the defaults) stand in Sys2Proof/Machine/Params.lean. -/

namespace Sys2Proof

/-- `BYTE_ORDER` (R7, R52). -/
inductive ByteOrder where
  | little
  | big
  deriving DecidableEq, Repr

/-- A reply policy, the type of `MALFORMED_RESPONSE`, `UNKNOWN_CMD_RESPONSE`, `RESERVED_CMD_RESPONSE` (R7). -/
inductive Response where
  /-- the single byte `NACK_MARK` -/
  | nack
  /-- no byte at all -/
  | silent
  deriving DecidableEq, Repr

/-- The twelve `CODE_*` parameters (R7, R77). -/
structure Codes where
  getVer : Byte
  getHelp : Byte
  getCid : Byte
  getRdp : Byte
  goToAddr : Byte
  flashErase : Byte
  memWrite : Byte
  enRwProtect : Byte
  memRead : Byte
  readSectorStatus : Byte
  otpRead : Byte
  disRwProtect : Byte
  deriving DecidableEq, Repr

/-- One instance of the parameters of R7 whose value no rule fixes. An instance is data: no step changes it (log 1).
Addresses are held as word indices, the address divided by 4, so that R8 (f) and the bound on `APP_BASE + 4`
(R7) hold of every instance (log 3). -/
structure Config where
  /-- `CRC_POLY` -/
  crcPoly : Word
  /-- `CRC_INIT` -/
  crcInit : Word
  /-- `BYTE_ORDER` -/
  byteOrder : ByteOrder
  /-- `CODE_*` -/
  codes : Codes
  /-- `SUPPORTED_CMDS`, the ROM of R33 -/
  supportedCmds : List Byte
  /-- `BL_VERSION` -/
  blVersion : Byte
  /-- `APP_BASE / 4`, below 2^30 - 1 because `APP_BASE + 4 < 2^32` -/
  appBaseWord : Fin 1073741823
  /-- `CHIP_ID_ADDR / 4` -/
  chipIdWord : Fin 1073741824
  /-- `OPTION_BYTE_ADDR / 4` -/
  optionByteWord : Fin 1073741824
  /-- `RDP_BYTE_INDEX` -/
  rdpByteIndex : Fin 4
  /-- `MALFORMED_RESPONSE` -/
  malformedResponse : Response
  /-- `UNKNOWN_CMD_RESPONSE` -/
  unknownCmdResponse : Response
  /-- `RESERVED_CMD_RESPONSE` -/
  reservedCmdResponse : Response
  /-- `RX_TIMEOUT_EN` -/
  rxTimeoutEn : Bool
  /-- `SP_VALID` as the inclusive ranges it accepts (log 6) -/
  spRanges : List (Word × Word)
  deriving DecidableEq, Repr

/-- OPEN (R7, D8): which word index `APP_BASE` is. A free value: nothing is known of it (log 3). -/
opaque Config.openAppBaseWord : Fin 1073741823

/-- OPEN (R7, D8): which word index `CHIP_ID_ADDR` is (log 3). -/
opaque Config.openChipIdWord : Fin 1073741824

/-- OPEN (R7, D8): which word index `OPTION_BYTE_ADDR` is (log 3). -/
opaque Config.openOptionByteWord : Fin 1073741824

/-- OPEN (R7, D30, U16): what the environment's memory holds at a byte address that State does not list.
A free value: every rule holds for every `MEM` (log 4). -/
opaque Config.memByte : Nat → Byte

end Sys2Proof
end

