-- ==== Sys2Proof/Machine/Bytes.lean ====
section
/-! DEFINITION. Byte order (spec/20_memory.md R52 to R54): assembling a word from the bytes in the order they
travel, and splitting it again. -/

namespace Sys2Proof.Machine

/-- `word32(b0, b1, b2, b3)`, R52: `b0` is the first byte on the wire. -/
def word32 (o : ByteOrder) (b0 b1 b2 b3 : Byte) : Word :=
  match o with
  | .little => b3 ++ b2 ++ b1 ++ b0
  | .big => b0 ++ b1 ++ b2 ++ b3

/-- Byte `k` of a word: bits 8k+7 .. 8k (R11). -/
def byteOf (w : Word) (k : Nat) : Byte := w.extractLsb' (8 * k) 8

/-- `bytes32(w)`, R53, in wire order. -/
def bytes32 (o : ByteOrder) (w : Word) : List Byte :=
  match o with
  | .little => [byteOf w 0, byteOf w 1, byteOf w 2, byteOf w 3]
  | .big => [byteOf w 3, byteOf w 2, byteOf w 1, byteOf w 0]

/-- `bytes16(h)`, R53, in wire order. -/
def bytes16 (o : ByteOrder) (h : BitVec 16) : List Byte :=
  match o with
  | .little => [h.extractLsb' 0 8, h.extractLsb' 8 8]
  | .big => [h.extractLsb' 8 8, h.extractLsb' 0 8]

end Sys2Proof.Machine
end

