-- ==== Sys2Proof/Machine/Cells.lean ====
section
/-! DEFINITION. Sparse byte cells (index and value pairs, index strictly rising) and, over them, the external memory
`MEM` (spec/20_memory.md R50, R55). -/

namespace Sys2Proof.Machine

/-- The value a cell holds, if it holds one. -/
def Cells.get? : List Host.Cell → Nat → Option Byte
  | [], _ => none
  | (a, v) :: t, i => if i = a then some v else Cells.get? t i

/-- `x[i] <- v` (R12), keeping the indices strictly rising. -/
def Cells.set : List Host.Cell → Nat → Byte → List Host.Cell
  | [], i, v => [(i, v)]
  | (a, w) :: t, i, v =>
    if i < a then (i, v) :: (a, w) :: t
    else if i = a then (i, v) :: t
    else (a, w) :: Cells.set t i v

/-- `x[i] <- no value`. -/
def Cells.erase : List Host.Cell → Nat → List Host.Cell
  | [], _ => []
  | (a, w) :: t, i => if i = a then t else (a, w) :: Cells.erase t i

/-- Every index of the list is above `n` and they rise strictly. -/
def Cells.risingAbove : Nat → List Host.Cell → Bool
  | _, [] => true
  | n, (a, _) :: t => decide (n < a) && Cells.risingAbove a t

/-- The canonical form: strictly rising indices. -/
def Cells.rising : List Host.Cell → Bool
  | [] => true
  | (a, _) :: t => Cells.risingAbove a t

/-- The byte of `MEM` at a byte address. What an unlisted address reads as is the free value `Config.memByte`
(U16: any value, log 4). -/
def Memory.read (m : List Host.Cell) (a : Nat) : Byte := (Cells.get? m a).getD (Config.memByte a)

/-- A new byte for `MEM`, chosen by the environment (R241), in canonical form. No step of the block uses it (R58). -/
def Memory.write (m : List Host.Cell) (a : Nat) (v : Byte) : List Host.Cell :=
  if v = Config.memByte a then Cells.erase m a else Cells.set m a v

/-- The 32-bit value `MEM(addr)` (R55). The order of the four listed bytes is the model's own (log 5): the block
sees whole words only (R54). -/
def Memory.word (m : List Host.Cell) (addr : Word) : Word :=
  Memory.read m (addr.toNat + 3) ++ Memory.read m (addr.toNat + 2) ++ Memory.read m (addr.toNat + 1)
    ++ Memory.read m addr.toNat

/-- Canonical form of the memory list: addresses of the 32-bit space, strictly rising, and no byte listed that an
unlisted address would read as. -/
def Memory.wf (m : List Host.Cell) : Bool :=
  Cells.rising m && m.all fun c => decide (c.1 < 4294967296) && decide (c.2 ≠ Config.memByte c.1)

end Sys2Proof.Machine
end

