-- ==== Sys2Proof/Machine/Crc.lean ====
section
/-! DEFINITION. The checksum function of the Integrity Verifier (spec/41_integrity_verifier.md R121 to R123). -/

namespace Sys2Proof.Machine

/-- One turn of the loop of R122: shift left by one, exclusive-or with the polynomial when bit 31 was set. -/
def crcShift (poly a : Word) : Word :=
  if a.msb then (a <<< 1) ^^^ poly else a <<< 1

/-- `n` turns of the loop of R122. -/
def crcShifts (poly : Word) : Nat → Word → Word
  | 0, a => a
  | n + 1, a => crcShifts poly n (crcShift poly a)

/-- `crc_step(acc, w)`, R122: one 32-bit word accumulated. -/
def crcStep (poly acc w : Word) : Word := crcShifts poly 32 (acc ^^^ w)

/-- The accumulation of a byte sequence from a given accumulator: each byte is one zero-extended word (R121). -/
def crcRun (poly acc : Word) : List Byte → Word
  | [] => acc
  | b :: bs => crcRun poly (crcStep poly acc (b.setWidth 32)) bs

/-- `crc32w(bs)`, R123: the accumulation from `CRC_INIT`. -/
def crc32w (c : Config) (bs : List Byte) : Word := crcRun c.crcPoly c.crcInit bs

end Sys2Proof.Machine
end

