-- ==== Sys2Proof/Machine/Params.lean ====
section
/-! DEFINITION. The values of the parameters (spec/00_scope.md R7): the fixed ones, the defaults, and the
constraints of R8 as a check. -/

namespace Sys2Proof

/-- `RX_CAP`, fixed: 200 cells. -/
def Config.rxCap : Nat := 200

/-- `MIN_LEN`, fixed. -/
def Config.minLen : Nat := 5

/-- `CRC_LEN`, fixed. -/
def Config.crcLen : Nat := 4

/-- `ACK_MARK`, fixed. -/
def Config.ackMark : Byte := 0xA5

/-- `NACK_MARK`, fixed. -/
def Config.nackMark : Byte := 0x7F

/-- The defaults of the twelve codes (R7, R77, D5). -/
def Codes.default : Codes where
  getVer := 0x51
  getHelp := 0x52
  getCid := 0x53
  getRdp := 0x54
  goToAddr := 0x55
  flashErase := 0x56
  memWrite := 0x57
  enRwProtect := 0x58
  memRead := 0x59
  readSectorStatus := 0x5A
  otpRead := 0x5B
  disRwProtect := 0x5C

/-- The twelve codes in the order of R143. -/
def Codes.all (k : Codes) : List Byte :=
  [k.getVer, k.getHelp, k.getCid, k.getRdp, k.goToAddr, k.flashErase, k.memWrite, k.enRwProtect,
   k.memRead, k.readSectorStatus, k.otpRead, k.disRwProtect]

/-- The instance of R7 with every default, and the free values of Config for the three OPEN addresses. -/
def Config.default : Config where
  crcPoly := 0x04C11DB7
  crcInit := 0xFFFFFFFF
  byteOrder := .little
  codes := Codes.default
  supportedCmds := [0x51, 0x52, 0x53, 0x54]
  blVersion := 0x10
  appBaseWord := Config.openAppBaseWord
  chipIdWord := Config.openChipIdWord
  optionByteWord := Config.openOptionByteWord
  rdpByteIndex := 1
  malformedResponse := .nack
  unknownCmdResponse := .silent
  reservedCmdResponse := .nack
  rxTimeoutEn := false
  spRanges := [(0x00000000, 0xFFFFFFFF)]

/-- `APP_BASE` (R7). -/
def Config.appBase (c : Config) : Word := BitVec.ofNat 32 (4 * c.appBaseWord.val)

/-- `CHIP_ID_ADDR` (R7). -/
def Config.chipIdAddr (c : Config) : Word := BitVec.ofNat 32 (4 * c.chipIdWord.val)

/-- `OPTION_BYTE_ADDR` (R7). -/
def Config.optionByteAddr (c : Config) : Word := BitVec.ofNat 32 (4 * c.optionByteWord.val)

/-- `SP_VALID(sp)` (R7, R198): some accepted range holds it. -/
def Config.spValid (c : Config) (sp : Word) : Bool :=
  c.spRanges.any fun r => decide (r.1.toNat ≤ sp.toNat) && decide (sp.toNat ≤ r.2.toNat)

/-- R8 (a): the twelve codes are pairwise distinct. -/
def Config.codesDistinct (c : Config) : Bool := decide c.codes.all.Nodup

/-- R8: the constraints that the types of Config do not already say. R8 (b), (c), (d) are about the fixed
parameters, R8 (f) holds by the types of the word indices. -/
def Config.wf (c : Config) : Bool :=
  c.codesDistinct && decide (c.supportedCmds.length ≤ 255)

end Sys2Proof
end

