-- ==== Sys2Proof/Machine/State.lean ====
section
/-! DEFINITION. The state of the block and of what acts on it (spec/10_state.md), the reasons a step can stop, and
the state after reset. -/

namespace Sys2Proof.Machine

/-- `mode`, R22. -/
inductive Mode where
  /-- `M_RESET`: the boot decision has not been taken -/
  | reset
  /-- `M_CMD_LOOP`: packets are read and answered -/
  | cmdLoop
  /-- `M_APP_JUMP`: the hand-off has happened; terminal -/
  | appJump
  /-- `M_HALT`: safe halt; terminal -/
  | halt
  deriving DecidableEq, Repr

/-- `fsm`, R23. -/
inductive Fsm where
  /-- `F_WAIT_LEN` -/
  | waitLen
  /-- `F_RECV` -/
  | recv
  /-- `F_DRAIN` -/
  | drain
  deriving DecidableEq, Repr

/-- The error causes, R210. They are outcomes of a packet or of the boot step, not faults of the machine. -/
inductive Cause where
  | oversize
  | short
  | timeout
  | crc
  | reserved
  | unknown
  | init
  | badSp
  deriving DecidableEq, Repr

/-- The trace labels, R212. -/
inductive Event where
  /-- `EV_RESET` -/
  | reset
  /-- `EV_BOOT_CMDLOOP` -/
  | bootCmdLoop
  /-- `EV_HANDOFF(sp, entry)` -/
  | handoff (sp entry : Word)
  /-- `EV_HALT(cause)` -/
  | halt (cause : Cause)
  /-- `EV_LEN(L)` -/
  | len (l : Byte)
  /-- `EV_BYTE` -/
  | byte
  /-- `EV_ACK(code)` -/
  | ack (code : Byte)
  /-- `EV_NACK(cause)` -/
  | nack (cause : Cause)
  /-- `EV_DROP(cause)` -/
  | drop (cause : Cause)
  deriving DecidableEq, Repr

/-- What the environment may choose anew at a reset (R241): `none` leaves it as it is (log 16). -/
structure Launch where
  initOk : Option Bool
  bootSel : Option Bool
  mem : Option (List Host.Cell)
  rx : Option (List Byte)
  deriving DecidableEq, Repr

/-- One event of the agents outside the block (R21), or the block's turn (log 7). -/
inductive EnvEvent where
  /-- the block takes its turn -/
  | block
  /-- the host appends a byte to `rx` (R34) -/
  | hostSend (b : Byte)
  /-- `rst` (R39) with the launch state of the run that follows (R241) -/
  | rst (l : Launch)
  /-- `rx_timeout` (R41) -/
  | rxTimeout
  /-- the level of `boot_sel` becomes this (R38, R258) -/
  | setBootSel (v : Bool)
  /-- the level of `init_ok` becomes this (R40) -/
  | setInitOk (v : Bool)
  deriving DecidableEq, Repr

/-- Everything the spec gives the machine, as plain data. -/
structure State where
  /-- the parameters (R7, R46); no step changes them (log 1) -/
  cfg : Config
  /-- `mode`, R22 -/
  mode : Mode
  /-- `fsm`, R23 -/
  fsm : Fsm
  /-- `rx_buf`, R25: the cells that hold a value, index rising (log 10) -/
  rxBuf : List Host.Cell
  /-- `rx_len`, R26 -/
  rxLen : Byte
  /-- `rx_cnt`, R27 -/
  rxCnt : Nat
  /-- `drain_rem`, R28 -/
  drainRem : Nat
  /-- `crc_acc`, R29 -/
  crcAcc : Word
  /-- `ho_valid`, R30 -/
  hoValid : Bool
  /-- `ho_sp`, R30; none is "no value" -/
  hoSp : Option Word
  /-- `ho_entry`, R30; none is "no value" -/
  hoEntry : Option Word
  /-- the stream `rx`, R34, oldest byte first -/
  rx : List Byte
  /-- the record `tx`, R35, oldest byte first -/
  tx : List Byte
  /-- the trace, R36, R212, oldest label first -/
  trace : List Event
  /-- the addresses presented on the port `read_word` (R37, R42), oldest first; the model's own record (log 12) -/
  reads : List Word
  /-- the level `init_ok`, R40 -/
  initOk : Bool
  /-- the level `boot_sel`, R38; true is asserted -/
  bootSel : Bool
  /-- `MEM`, R42, R55: the listed bytes of the external space, address rising (log 4, log 5) -/
  mem : List Host.Cell
  /-- the events of host and environment still to come (log 7) -/
  env : List EnvEvent
  deriving DecidableEq, Repr

/-- Why the model stops. None of these is a behaviour of the block (R25: "an error of the model, never of the
block"), and no state that meets the invariant of R44 and the constraints of R8 reaches one. All are safe: the model
stops where the spec says nothing. -/
inductive Fault where
  /-- a read of `rx_buf` cell `i`, which holds no value (R25); raised by the completion step; safe -/
  | emptyCell (i : Nat)
  /-- a write of `rx_buf` at an index not below `RX_CAP` (R109); raised by the reader's steps; safe -/
  | bufferIndex (i : Nat)
  /-- a drain step with `drain_rem` = 0, outside the precondition of R104; raised by that step; safe -/
  | drainUnderflow
  /-- an Acknowledge payload over 255 bytes, outside R80 and R8 (e); raised by the Response Encoder; safe -/
  | replyTooLong (n : Nat)
  deriving DecidableEq, Repr

/-- Why an instruction has no meaning. -/
inductive Refusal where
  /-- an arm of exec whose meaning is not written; raised by exec only; safe -/
  | notModelled (mnemonic : String)
  deriving DecidableEq, Repr

/-- The state right after reset at the start of a session: the registers as R45 and R240 say, the parameters at
their defaults (log 2, log 3), the trace with the one label of R240, and the launch inputs of log 9. -/
def State.reset : State where
  cfg := Config.default
  mode := .reset
  fsm := .waitLen
  rxBuf := []
  rxLen := 0
  rxCnt := 0
  drainRem := 0
  crcAcc := Config.default.crcInit
  hoValid := false
  hoSp := none
  hoEntry := none
  rx := []
  tx := []
  trace := [.reset]
  reads := []
  initOk := true
  bootSel := true
  mem := []
  env := []

end Sys2Proof.Machine
end

