-- ==== Sys2Proof/Machine/Ops.lean ====
section
/-! DEFINITION. The named operations of the step rules (spec/00_scope.md R12): the streams, the receive buffer, the
external read, the Response Encoder, taking an error path (`raise`) and the return from it (`rearm`). -/

namespace Sys2Proof.Machine

/-- The outcomes of a step of this machine. -/
abbrev Out := Host.Outcome State Fault Refusal

/-- What follows a part of a step that can stop. -/
def andThen (o : Out) (f : State → Out) : Out :=
  match o with
  | .next s => f s
  | .fault r => .fault r
  | .refused r => .refused r

/-- `trace(label)`, R12, R36. -/
def State.addTrace (s : State) (e : Event) : State := { s with trace := s.trace ++ [e] }

/-- `tx_push(seq)`, R12, R35. -/
def State.txPush (s : State) (bs : List Byte) : State := { s with tx := s.tx ++ bs }

/-- `rx_pop()`, R12, R34: the oldest byte and the state without it; none when `rx` is empty. -/
def State.rxPop (s : State) : Option (Byte × State) :=
  match s.rx with
  | [] => none
  | b :: rest => some (b, { s with rx := rest })

/-- The host's append at the tail of `rx`, R34. -/
def State.rxAppend (s : State) (b : Byte) : State := { s with rx := s.rx ++ [b] }

/-- `rx_buf[i] <- v`, R12, R25. An index outside the buffer is a fault of the model (R109). -/
def State.writeCell (s : State) (i : Nat) (v : Byte) : Out :=
  if i < Config.rxCap then .next { s with rxBuf := Cells.set s.rxBuf i v } else .fault (.bufferIndex i)

/-- `MemRead(addr, 4)`, R12, R55: the value `MEM(addr)`. It cannot fail and changes nothing but the record of the
port `read_word` (log 12). -/
def State.memRead (s : State) (addr : Word) : Word × State :=
  (Memory.word s.mem addr, { s with reads := s.reads ++ [addr] })

/-- `send_ack(p)`, R144: `[ACK_MARK, n] ++ p` (R80), `n` at most 255. -/
def sendAck (p : List Byte) (s : State) : Out :=
  if p.length ≤ 255 then .next (s.txPush (Config.ackMark :: BitVec.ofNat 8 p.length :: p))
  else .fault (.replyTooLong p.length)

/-- `send_nack()`, R145: the one byte `NACK_MARK` (R81). -/
def sendNack (s : State) : State := s.txPush [Config.nackMark]

/-- The column "reply on tx" of R210: what a cause answers under the parameters. The two halting causes have no
reply. -/
def Cause.response (c : Config) : Cause → Response
  | .oversize => c.malformedResponse
  | .short => c.malformedResponse
  | .timeout => .silent
  | .crc => .nack
  | .reserved => c.reservedCmdResponse
  | .unknown => c.unknownCmdResponse
  | .init => .silent
  | .badSp => .silent

/-- The error path of a packet (R210): the reply if the policy gives one, and the label that says which (R212). -/
def raisePacket (c : Cause) (s : State) : State :=
  match c.response s.cfg with
  | .nack => (sendNack s).addTrace (.nack c)
  | .silent => s.addTrace (.drop c)

/-- The error path of the boot step (R191, R198, R210): `mode <- M_HALT` and the label. -/
def raiseHalt (c : Cause) (s : State) : State := { s with mode := .halt }.addTrace (.halt c)

/-- `raise <Cause>`, R12, R210: the one operation of every error path. Nothing is saved (R217); a cause of the boot
step halts, every other cause replies and leaves the control state to the `rearm` that follows it. -/
def raise (c : Cause) (s : State) : State :=
  match c with
  | .oversize => raisePacket .oversize s
  | .short => raisePacket .short s
  | .timeout => raisePacket .timeout s
  | .crc => raisePacket .crc s
  | .reserved => raisePacket .reserved s
  | .unknown => raisePacket .unknown s
  | .init => raiseHalt .init s
  | .badSp => raiseHalt .badSp s

/-- `rearm()`, R107: the end of every packet, and the return from every packet-level error (R218). `rx_len` keeps
its value. -/
def rearm (s : State) : State := { s with rxBuf := [], rxCnt := 0, drainRem := 0, fsm := .waitLen }

/-- The block's registers at reset, R240. `tx`, `rx` and the parameters stay (R241). -/
def resetBlock (s : State) : State :=
  { s with
    mode := .reset
    fsm := .waitLen
    rxBuf := []
    rxLen := 0
    rxCnt := 0
    drainRem := 0
    crcAcc := s.cfg.crcInit
    hoValid := false
    hoSp := none
    hoEntry := none }.addTrace .reset

/-- The environment's choice at a reset, R241. -/
def applyLaunch (l : Launch) (s : State) : State :=
  { s with
    initOk := l.initOk.getD s.initOk
    bootSel := l.bootSel.getD s.bootSel
    mem := l.mem.getD s.mem
    rx := l.rx.getD s.rx }

end Sys2Proof.Machine
end

