-- ==== Sys2Proof/Machine/Boot.lean ====
section
/-! DEFINITION. The Boot Decision and Hand-off (spec/44_boot_handoff.md R190 to R198). -/

namespace Sys2Proof.Machine

/-- The hand-off outputs, R196, and the label. -/
def handOff (sp entry : Word) (s : State) : State :=
  { s with hoSp := some sp, hoEntry := some entry, hoValid := true, mode := .appJump }.addTrace (.handoff sp entry)

/-- Step `BOOT`, R190: `init_ok`, then `boot_sel`, then the two words of the Application Vector in order (R65), with
the optional check between them (R198). -/
def stepBoot (s : State) : State :=
  if s.initOk = false then raise .init s
  else if s.bootSel = true then ({ s with mode := .cmdLoop, fsm := .waitLen } : State).addTrace .bootCmdLoop
  else
    let (sp, s₁) := s.memRead s.cfg.appBase
    if s.cfg.spValid sp = false then raise .badSp s₁
    else
      let (entry, s₂) := s₁.memRead (s.cfg.appBase + 4)
      handOff sp entry s₂

end Sys2Proof.Machine
end

