-- ==== Sys2Proof/Syntax.lean ====
section
/-! DEFINITION. The instructions: the command packets of spec/opcode_table.json, one constructor a row
(spec/00_scope.md R3, spec/30_encoding.md R77). -/

namespace Sys2Proof

/-- A command packet with a correct checksum, as the Dispatcher routes it: which command, and its payload.
The length byte and the checksum are functions of these (R84), so an instruction does not carry them (log 14). -/
inductive Instr where
  /-- `GET_VER`, R160 -/
  | getVer (payload : List Byte)
  /-- `GET_HELP`, R161 -/
  | getHelp (payload : List Byte)
  /-- `GET_CID`, R162 -/
  | getCid (payload : List Byte)
  /-- `GET_RDP`, R163 -/
  | getRdp (payload : List Byte)
  /-- `GO_TO_ADDR`, reserved, R170 -/
  | goToAddr (payload : List Byte)
  /-- `FLASH_ERASE`, reserved, R171 -/
  | flashErase (payload : List Byte)
  /-- `MEM_WRITE`, reserved, R172 -/
  | memWrite (payload : List Byte)
  /-- `EN_RW_PROTECT`, reserved, R173 -/
  | enRwProtect (payload : List Byte)
  /-- `MEM_READ`, reserved, R174 -/
  | memRead (payload : List Byte)
  /-- `READ_SECTOR_STATUS`, reserved, R175 -/
  | readSectorStatus (payload : List Byte)
  /-- `OTP_READ`, reserved, R176 -/
  | otpRead (payload : List Byte)
  /-- `DIS_RW_PROTECT`, reserved, R177 -/
  | disRwProtect (payload : List Byte)
  /-- every other command code, R178 -/
  | unknown (code : Byte) (payload : List Byte)
  deriving DecidableEq, Repr

/-- The payload a packet carries (R70, bytes 2 .. L - 4). -/
def Instr.payload : Instr → List Byte
  | .getVer p => p
  | .getHelp p => p
  | .getCid p => p
  | .getRdp p => p
  | .goToAddr p => p
  | .flashErase p => p
  | .memWrite p => p
  | .enRwProtect p => p
  | .memRead p => p
  | .readSectorStatus p => p
  | .otpRead p => p
  | .disRwProtect p => p
  | .unknown _ p => p

end Sys2Proof
end

