-- ==== Sys2Proof/WellFormed.lean ====
section
/-! DEFINITION. Which instruction terms stand for a packet that can be sent (spec/30_encoding.md R73, R74, R77). -/

namespace Sys2Proof

/-- R74: the payload of a well-formed packet has at most `RX_CAP - 6` bytes. -/
def Instr.payloadFits (i : Instr) : Bool := decide (i.payload.length + 6 ≤ Config.rxCap)

/-- R178: an `unknown` packet's code is none of the twelve. Every other constructor has its own code. -/
def Instr.codeLegal (c : Config) : Instr → Bool
  | .unknown code _ => !c.codes.all.contains code
  | .getVer _ => true
  | .getHelp _ => true
  | .getCid _ => true
  | .getRdp _ => true
  | .goToAddr _ => true
  | .flashErase _ => true
  | .memWrite _ => true
  | .enRwProtect _ => true
  | .memRead _ => true
  | .readSectorStatus _ => true
  | .otpRead _ => true
  | .disRwProtect _ => true

/-- A well-formed instruction under the parameters `c`. -/
def Instr.wf (c : Config) (i : Instr) : Bool := i.payloadFits && i.codeLegal c

end Sys2Proof
end

