-- ==== Sys2Proof/Decode.lean ====
section
/-! DEFINITION. The decoder, total on any byte sequence and rejecting by name (spec/30_encoding.md R70 to R79, R85),
and the encoder `PKT` of R84. -/

namespace Sys2Proof

open Sys2Proof.Machine

/-- Why a byte sequence is no packet with a command to run. -/
inductive DecodeError where
  /-- the sequence ends before the declared bytes do: the reader would still wait (R72, R105) -/
  | truncated
  /-- `L + 1 > RX_CAP`, known from the length byte alone (R73, R78) -/
  | oversize
  /-- `L < MIN_LEN` (R73, R78 step 1) -/
  | short
  /-- the checksum disagrees (R78 step 2) -/
  | badChecksum
  deriving DecidableEq, Repr

/-- The command code map (R77, R143), the tests in the order of R143: the meaning of byte 1 of a packet. -/
def decodeCommand (c : Config) (code : Byte) (p : List Byte) : Instr :=
  if code = c.codes.getVer then .getVer p
  else if code = c.codes.getHelp then .getHelp p
  else if code = c.codes.getCid then .getCid p
  else if code = c.codes.getRdp then .getRdp p
  else if code = c.codes.goToAddr then .goToAddr p
  else if code = c.codes.flashErase then .flashErase p
  else if code = c.codes.memWrite then .memWrite p
  else if code = c.codes.enRwProtect then .enRwProtect p
  else if code = c.codes.memRead then .memRead p
  else if code = c.codes.readSectorStatus then .readSectorStatus p
  else if code = c.codes.otpRead then .otpRead p
  else if code = c.codes.disRwProtect then .disRwProtect p
  else .unknown code p

/-- R78 on a packet's bytes after the length byte `l`, of which there are as many as `l` says: the covered bytes
are the length byte and all but the last four (R76), the checksum the last four (R75). -/
def decodeBody (c : Config) (l : Byte) (body : List Byte) : Except DecodeError Instr :=
  match body.take (body.length - 4), body.drop (body.length - 4) with
  | code :: p, [b0, b1, b2, b3] =>
    if word32 c.byteOrder b0 b1 b2 b3 = crc32w c (l :: code :: p) then .ok (decodeCommand c code p)
    else .error .badChecksum
  | _, _ => .error .short

/-- The first packet of a byte sequence and the bytes after it (R72). The order of the tests is that of R78, the
oversize class before them because the length byte alone decides it. -/
def decode (c : Config) : List Byte → Except DecodeError (Instr × List Byte)
  | [] => .error .truncated
  | l :: tl =>
    if l.toNat + 1 > Config.rxCap then .error .oversize
    else if tl.length < l.toNat then .error .truncated
    else if l.toNat < Config.minLen then .error .short
    else
      match decodeBody c l (tl.take l.toNat) with
      | .ok i => .ok (i, tl.drop l.toNat)
      | .error e => .error e

/-- The command code of an instruction under the parameters `c` (R77). -/
def Instr.code (c : Config) : Instr → Byte
  | .getVer _ => c.codes.getVer
  | .getHelp _ => c.codes.getHelp
  | .getCid _ => c.codes.getCid
  | .getRdp _ => c.codes.getRdp
  | .goToAddr _ => c.codes.goToAddr
  | .flashErase _ => c.codes.flashErase
  | .memWrite _ => c.codes.memWrite
  | .enRwProtect _ => c.codes.enRwProtect
  | .memRead _ => c.codes.memRead
  | .readSectorStatus _ => c.codes.readSectorStatus
  | .otpRead _ => c.codes.otpRead
  | .disRwProtect _ => c.codes.disRwProtect
  | .unknown code _ => code

/-- The covered bytes of `PKT(c; p)` (R84): the length byte `5 + |p|`, the code, the payload. -/
def packetBody (code : Byte) (p : List Byte) : List Byte := BitVec.ofNat 8 (5 + p.length) :: code :: p

/-- `PKT(c; p)`, R84: the covered bytes and their checksum in wire order. -/
def packet (c : Config) (code : Byte) (p : List Byte) : List Byte :=
  packetBody code p ++ bytes32 c.byteOrder (crc32w c (packetBody code p))

/-- The packet that stands for an instruction. -/
def encode (c : Config) (i : Instr) : List Byte := packet c (i.code c) i.payload

/-- Byte `k` of a number, byte 0 the least significant. -/
def byteOfNat (w k : Nat) : Byte := BitVec.ofNat 8 (w / 256 ^ k)

/-- The packet of an opcode-table row under the parameters `c`: spec/opcode_table.json numbers the bits of the
command code, byte 1 of the packet, from 0, and gives the rest of the packet no bits. A word wider than 8 bits
goes on into the payload. The length byte and the checksum are those of R84 (log 13). -/
def tablePacket (c : Config) (nbits w : Nat) : List Byte :=
  packet c (byteOfNat w 0) ((List.range (nbits / 8 - 1)).map fun k => byteOfNat w (k + 1))

/-- The instruction the decoder reads from an opcode-table word, under the default parameters (log 13). -/
def decodeTableWord (nbits w : Nat) : Option Instr :=
  match decode Config.default (tablePacket Config.default nbits w) with
  | .ok (i, _) => some i
  | .error _ => none

end Sys2Proof
end

