-- ==== Sys2Proof/Machine/Query.lean ====
section
/-! DEFINITION. The four implemented commands (spec/43_command_handlers.md R160 to R163). Each handler is at most one
`MemRead`, then one Acknowledge, then one trace label (R165, R167). The payload is ignored (R164). -/

namespace Sys2Proof.Machine

/-- An Acknowledge and its label, the common end of the four handlers (R167). -/
def acknowledge (code : Byte) (p : List Byte) (s : State) : Out :=
  andThen (sendAck p s) fun s' => .next (s'.addTrace (.ack code))

/-- `h_get_ver()`, R160. -/
def execGetVer (_payload : List Byte) (s : State) : Out :=
  acknowledge s.cfg.codes.getVer [s.cfg.blVersion] s

/-- `h_get_help()`, R161: the ROM `SUPPORTED_CMDS` (R33) in its own order. -/
def execGetHelp (_payload : List Byte) (s : State) : Out :=
  acknowledge s.cfg.codes.getHelp s.cfg.supportedCmds s

/-- `h_get_cid()`, R162: bits 11:0 of the word at `CHIP_ID_ADDR`, zero-extended to 16 bits, in wire order. -/
def execGetCid (_payload : List Byte) (s : State) : Out :=
  let (w, s₁) := s.memRead s.cfg.chipIdAddr
  acknowledge s.cfg.codes.getCid (bytes16 s.cfg.byteOrder ((w.extractLsb' 0 12).setWidth 16)) s₁

/-- `h_get_rdp()`, R163: byte `RDP_BYTE_INDEX` of the word at `OPTION_BYTE_ADDR`. -/
def execGetRdp (_payload : List Byte) (s : State) : Out :=
  let (w, s₁) := s.memRead s.cfg.optionByteAddr
  acknowledge s.cfg.codes.getRdp [byteOf w s.cfg.rdpByteIndex.val] s₁

end Sys2Proof.Machine
end

