-- ==== Sys2Proof/Machine/Reserved.lean ====
section
/-! DEFINITION. The eight reserved slots (spec/43_command_handlers.md R168, R170 to R177): each raises `E_RESERVED` and
does nothing else, whatever its payload. -/

namespace Sys2Proof.Machine

/-- `GO_TO_ADDR`, R170: no jump. -/
def execGoToAddr (_payload : List Byte) (s : State) : Out := .next (raise .reserved s)

/-- `FLASH_ERASE`, R171: nothing is erased. -/
def execFlashErase (_payload : List Byte) (s : State) : Out := .next (raise .reserved s)

/-- `MEM_WRITE`, R172: nothing is written. -/
def execMemWrite (_payload : List Byte) (s : State) : Out := .next (raise .reserved s)

/-- `EN_RW_PROTECT`, R173: no protection setting changes. -/
def execEnRwProtect (_payload : List Byte) (s : State) : Out := .next (raise .reserved s)

/-- `MEM_READ`, R174: no `MemRead`. -/
def execMemRead (_payload : List Byte) (s : State) : Out := .next (raise .reserved s)

/-- `READ_SECTOR_STATUS`, R175: no option byte is read. -/
def execReadSectorStatus (_payload : List Byte) (s : State) : Out := .next (raise .reserved s)

/-- `OTP_READ`, R176: nothing is read. -/
def execOtpRead (_payload : List Byte) (s : State) : Out := .next (raise .reserved s)

/-- `DIS_RW_PROTECT`, R177: no protection setting changes. -/
def execDisRwProtect (_payload : List Byte) (s : State) : Out := .next (raise .reserved s)

end Sys2Proof.Machine
end

