-- ==== Sys2Proof/Machine/Unknown.lean ====
section
/-! DEFINITION. Every other command code (spec/43_command_handlers.md R178). -/

namespace Sys2Proof.Machine

/-- An unknown code raises `E_UNKNOWN`, R178, and does nothing else. -/
def execUnknown (_code : Byte) (_payload : List Byte) (s : State) : Out := .next (raise .unknown s)

end Sys2Proof.Machine
end

