-- ==== Sys2Proof/Machine/Dispatch.lean ====
section
/-! DEFINITION. The Command Dispatcher's routing (spec/42_dispatcher_response.md R143): one arm per instruction. -/

namespace Sys2Proof.Machine

def exec (i : Instr) (s : State) : Host.Outcome State Fault Refusal :=
  match i with
  | .getVer p => Sys2Proof.Machine.execGetVer p s
  | .getHelp p => Sys2Proof.Machine.execGetHelp p s
  | .getCid p => Sys2Proof.Machine.execGetCid p s
  | .getRdp p => Sys2Proof.Machine.execGetRdp p s
  | .goToAddr p => Sys2Proof.Machine.execGoToAddr p s
  | .flashErase p => Sys2Proof.Machine.execFlashErase p s
  | .memWrite p => Sys2Proof.Machine.execMemWrite p s
  | .enRwProtect p => Sys2Proof.Machine.execEnRwProtect p s
  | .memRead p => Sys2Proof.Machine.execMemRead p s
  | .readSectorStatus p => Sys2Proof.Machine.execReadSectorStatus p s
  | .otpRead p => Sys2Proof.Machine.execOtpRead p s
  | .disRwProtect p => Sys2Proof.Machine.execDisRwProtect p s
  | .unknown c p => Sys2Proof.Machine.execUnknown c p s

end Sys2Proof.Machine
end

