-- ==== Sys2Proof/Machine/Flags.lean ====
section
/-! DEFINITION. The block has no stored flag (spec/10_state.md R31). Its one condition value is `crc_ok`, the result of
the verification (spec/41_integrity_verifier.md R124), computed and consumed inside the completion step. -/

namespace Sys2Proof.Machine

/-- `verify(covered_len, host_crc)`, R124, on the covered bytes already read: accumulate them from `crc_acc`,
compare all 32 bits, and restore `crc_acc` whatever the result. -/
def verify (covered : List Byte) (crc : Word) (s : State) : Bool × State :=
  (decide (crcRun s.cfg.crcPoly s.crcAcc covered = crc), { s with crcAcc := s.cfg.crcInit })

end Sys2Proof.Machine
end

