-- ==== Sys2Proof/Machine/Operands.lean ====
section
/-! DEFINITION. The fields of a completed packet, read from `rx_buf` (spec/30_encoding.md R70, R75, R76). There are no
other operand forms (R71). -/

namespace Sys2Proof.Machine

/-- `rx_buf[i]`, R12, R25: reading a cell that holds no value is an error of the model. -/
def readCell (buf : List Host.Cell) (i : Nat) : Except Fault Byte :=
  match Cells.get? buf i with
  | some v => .ok v
  | none => .error (.emptyCell i)

/-- `rx_buf[i .. i + n)`, in increasing index order (R51). -/
def readCells (buf : List Host.Cell) (i : Nat) : Nat → Except Fault (List Byte)
  | 0 => .ok []
  | n + 1 =>
    match readCell buf i with
    | .error r => .error r
    | .ok v =>
      match readCells buf (i + 1) n with
      | .error r => .error r
      | .ok vs => .ok (v :: vs)

/-- The fields of a packet (R70, R75, R76). -/
structure Fields where
  /-- the covered bytes, `rx_buf[0 .. L - 3)` -/
  covered : List Byte
  /-- the host checksum, the word of the last four bytes -/
  hostCrc : Word
  /-- the command code, `rx_buf[1]` -/
  code : Byte
  /-- the payload, `rx_buf[2 .. L - 4]` -/
  payload : List Byte
  deriving DecidableEq, Repr

/-- The host checksum, R75: `word32(rx_buf[L - 3], rx_buf[L - 2], rx_buf[L - 1], rx_buf[L])`. -/
def hostCrc (o : ByteOrder) (buf : List Host.Cell) (l : Nat) : Except Fault Word :=
  match readCell buf (l - 3), readCell buf (l - 2), readCell buf (l - 1), readCell buf l with
  | .ok b0, .ok b1, .ok b2, .ok b3 => .ok (word32 o b0 b1 b2 b3)
  | .error r, _, _, _ => .error r
  | _, .error r, _, _ => .error r
  | _, _, .error r, _ => .error r
  | _, _, _, .error r => .error r

/-- The fields of the packet in `rx_buf` whose length byte is `l`, at least `MIN_LEN`. -/
def readFields (o : ByteOrder) (buf : List Host.Cell) (l : Nat) : Except Fault Fields :=
  match readCells buf 0 (l - 3), hostCrc o buf l, readCell buf 1, readCells buf 2 (l - 5) with
  | .ok covered, .ok crc, .ok code, .ok payload => .ok ⟨covered, crc, code, payload⟩
  | .error r, _, _, _ => .error r
  | _, .error r, _, _ => .error r
  | _, _, .error r, _ => .error r
  | _, _, _, .error r => .error r

end Sys2Proof.Machine
end

