-- ==== Sys2Proof/Machine/Completion.lean ====
section
/-! DEFINITION. The completion procedure of a packet wholly received (spec/42_dispatcher_response.md R140 to R143). -/

namespace Sys2Proof.Machine

/-- Steps (4) and (5) of R140 once the packet's fields are read: verify, then the integrity error or the handler. -/
def runPacket (f : Fields) (s : State) : Out :=
  let (ok, s₁) := verify f.covered f.hostCrc s
  if ok then exec (decodeCommand s.cfg f.code f.payload) s₁ else .next (raise .crc s₁)

/-- `complete_packet()`, R140: the length test, then the fields, the verification and the handler; `rearm` on every
path. -/
def completePacket (s : State) : Out :=
  if s.rxLen.toNat < Config.minLen then .next (rearm (raise .short s))
  else
    match readFields s.cfg.byteOrder s.rxBuf s.rxLen.toNat with
    | .error r => .fault r
    | .ok f => andThen (runPacket f s) fun s' => .next (rearm s')

end Sys2Proof.Machine
end

