-- ==== Sys2Proof/Machine/Reader.lean ====
section
/-! DEFINITION. The Packet Reader's steps (spec/40_packet_reader.md R101 to R106). Each takes the state after the byte
`b` has been popped from `rx`, but for the time-out, which consumes none. -/

namespace Sys2Proof.Machine

/-- Step `RX_LEN`, R101: the length byte `l`, `l + 1 ≤ RX_CAP`. -/
def stepRxLen (l : Byte) (s : State) : Out :=
  andThen (({ s with rxLen := l } : State).writeCell 0 l) fun s₁ =>
    let s₂ := ({ s₁ with rxCnt := 1 } : State).addTrace (.len l)
    if l = 0 then completePacket s₂ else .next { s₂ with fsm := .recv }

/-- Step `RX_LEN_OVERSIZE`, R102: nothing is stored, `l` bytes are to be discarded. -/
def stepRxLenOversize (l : Byte) (s : State) : Out :=
  .next { ({ s with rxLen := l, drainRem := l.toNat } : State).addTrace (.len l) with fsm := .drain }

/-- Step `RX_BODY`, R103: the byte is stored, and the packet completes with its last byte. -/
def stepRxBody (b : Byte) (s : State) : Out :=
  andThen (s.writeCell s.rxCnt b) fun s₁ =>
    let s₂ := ({ s₁ with rxCnt := s₁.rxCnt + 1 } : State).addTrace .byte
    if s₂.rxCnt = s₂.rxLen.toNat + 1 then completePacket s₂ else .next s₂

/-- Step `RX_DRAIN`, R104: the byte is discarded, and `E_OVERSIZE` is raised with the last one. -/
def stepRxDrain (_b : Byte) (s : State) : Out :=
  if s.drainRem = 0 then .fault .drainUnderflow
  else
    let s₁ := ({ s with drainRem := s.drainRem - 1 } : State).addTrace .byte
    if s₁.drainRem = 0 then .next (rearm (raise .oversize s₁)) else .next s₁

/-- The event `rx_timeout` (R41). Step `RX_TIMEOUT`, R106, when it is enabled; otherwise it has no effect (log 19). -/
def stepRxTimeout (s : State) : State :=
  if s.cfg.rxTimeoutEn = true ∧ s.mode = .cmdLoop ∧ (s.fsm = .recv ∨ s.fsm = .drain) then
    rearm (raise .timeout s)
  else s

/-- The Packet Reader's step for one byte taken from `rx` (R101 to R104). The test of R102 is on `l + 1` in the
naturals (R10). -/
def readByte (b : Byte) (s : State) : Out :=
  match s.fsm with
  | .waitLen => if b.toNat + 1 ≤ Config.rxCap then stepRxLen b s else stepRxLenOversize b s
  | .recv => stepRxBody b s
  | .drain => stepRxDrain b s

end Sys2Proof.Machine
end

