-- ==== Sys2Proof/Machine/Turn.lean ====
section
/-! DEFINITION. Whose turn it is: the block's own step, the events of host and environment (spec/10_state.md R21, R34 to
R41; spec/70_reset_and_hazards.md R240, R241), and how a test places a packet for the very next step. -/

namespace Sys2Proof.Machine

/-- The block's step (R13). With none enabled (R105, R199, R200) the block does nothing: a wait, not a fault
(log 8). -/
def blockStep (s : State) : Out :=
  match s.mode with
  | .reset => .next (stepBoot s)
  | .cmdLoop =>
    match s.rxPop with
    | none => .next s
    | some (b, s₁) => readByte b s₁
  | .appJump => .next s
  | .halt => .next s

/-- Step `RESET`, R240, with the launch state the environment chooses (R241). -/
def stepReset (l : Launch) (s : State) : State := applyLaunch l (resetBlock s)

/-- One event of the schedule, or the block's turn (log 7). -/
def takeEvent (e : EnvEvent) (s : State) : Out :=
  match e with
  | .block => blockStep s
  | .hostSend b => .next (s.rxAppend b)
  | .rst l => .next (stepReset l s)
  | .rxTimeout => .next (stepRxTimeout s)
  | .setBootSel v => .next { s with bootSel := v }
  | .setInitOk v => .next { s with initOk := v }

/-- The next event of the schedule; the block's turn when the schedule is empty. -/
def takeTurn (s : State) : Out :=
  match s.env with
  | [] => blockStep s
  | e :: rest => takeEvent e { s with env := rest }

/-- Cells `i`, `i + 1`, … holding these bytes. -/
def cellsFrom (i : Nat) : List Byte → List Host.Cell
  | [] => []
  | b :: bs => (i, b) :: cellsFrom (i + 1) bs

/-- The state in which all bytes of a packet but the last are received and the last is next on `rx`, the block having
the turn: the very next step completes the packet (log 13). -/
def State.placePacket (s : State) (bs : List Byte) : State :=
  { s with
    mode := .cmdLoop
    fsm := .recv
    rxBuf := cellsFrom 0 bs.dropLast
    rxLen := bs.headD 0
    rxCnt := bs.length - 1
    drainRem := 0
    crcAcc := s.cfg.crcInit
    rx := bs.getLastD 0 :: s.rx
    env := .block :: s.env }

end Sys2Proof.Machine
end

