-- ==== Sys2Proof/Machine/Step.lean ====
section
/-! DEFINITION. The machine's one step. -/

namespace Sys2Proof.Machine

/-- One step (spec/00_scope.md R13): the next outside event, or the block's own step. -/
def step (s : State) : Host.Outcome State Fault Refusal := takeTurn s

/-- The packet of an opcode-table word placed so that the very next step runs it (log 13). -/
def State.withFetchWord (s : State) (nbits w : Nat) : State := s.placePacket (tablePacket s.cfg nbits w)

end Sys2Proof.Machine
end

