-- ==== Sys2Proof/Safety.lean ====
section
/-! DEFINITION. The terms claims are stated in: whose turn it is, which step is enabled, runs, the invariants of
spec/10_state.md R44, and the reply a packet owes (spec/42_dispatcher_response.md R147). -/

namespace Sys2Proof

open Sys2Proof.Machine

/-- The block has the turn in `s`, and `s'` is `s` with that turn taken off the schedule (log 7). -/
def BlockTurn (s s' : State) : Prop :=
  (s.env = [] ∧ s' = s) ∨ ∃ rest, s.env = .block :: rest ∧ s' = { s with env := rest }

/-- The steps of the block (R13). -/
inductive StepKind where
  | boot
  | rxLen
  | rxLenOversize
  | rxBody
  | rxDrain
  deriving DecidableEq, Repr

/-- Which step of the block is enabled (R101 to R104, R190); none when the block can only wait (R105, R199, R200). -/
def enabledStep (s : State) : Option StepKind :=
  match s.mode, s.fsm, s.rx with
  | .reset, _, _ => some .boot
  | .cmdLoop, _, [] => none
  | .cmdLoop, .waitLen, b :: _ => if b.toNat + 1 ≤ Config.rxCap then some .rxLen else some .rxLenOversize
  | .cmdLoop, .recv, _ :: _ => some .rxBody
  | .cmdLoop, .drain, _ :: _ => some .rxDrain
  | .appJump, _, _ => none
  | .halt, _, _ => none

/-- `n` steps. -/
def runs (n : Nat) (s : State) : Host.Outcome State Fault Refusal := Host.Core.run Sys2Proof.core n s

/-- The receive registers are idle: nothing received, nothing to drain, every cell without a value (I2, I3 of R44). -/
def Idle (s : State) : Prop :=
  s.fsm = .waitLen ∧ s.rxCnt = 0 ∧ s.drainRem = 0 ∧ ∀ i, Cells.get? s.rxBuf i = none

/-- The labels since the last `EV_RESET`, newest first. -/
def sinceReset (tr : List Event) : List Event := tr.reverse.takeWhile (· ≠ .reset)

/-- A label that says reply bytes were pushed (R212). -/
def isReplyLabel : Event → Bool
  | .ack _ => true
  | .nack _ => true
  | _ => false

/-- I1 to I7 of R44, with R30's rule for the values of the hand-off outputs. I7 is read on the trace: no label of a
reply since the last reset. -/
structure Inv (s : State) : Prop where
  crc : s.crcAcc = s.cfg.crcInit
  outside : s.mode ≠ .cmdLoop → Idle s
  waiting : s.mode = .cmdLoop → s.fsm = .waitLen → Idle s
  receiving : s.mode = .cmdLoop → s.fsm = .recv →
    1 ≤ s.rxLen.toNat ∧ s.rxLen.toNat + 1 ≤ Config.rxCap ∧ 1 ≤ s.rxCnt ∧ s.rxCnt ≤ s.rxLen.toNat ∧
    s.drainRem = 0 ∧ Cells.get? s.rxBuf 0 = some s.rxLen ∧
    (∀ i, i < s.rxCnt → (Cells.get? s.rxBuf i).isSome) ∧ (∀ i, s.rxCnt ≤ i → Cells.get? s.rxBuf i = none)
  draining : s.mode = .cmdLoop → s.fsm = .drain →
    Config.rxCap < s.rxLen.toNat + 1 ∧ 1 ≤ s.drainRem ∧ s.drainRem ≤ s.rxLen.toNat ∧ s.rxCnt = 0 ∧
    ∀ i, Cells.get? s.rxBuf i = none
  handOff : s.hoValid = true ↔ s.mode = .appJump
  handOffValues : (s.hoSp.isSome ↔ s.hoValid = true) ∧ (s.hoEntry.isSome ↔ s.hoValid = true)
  quiet : s.mode ≠ .cmdLoop → ∀ e ∈ sinceReset s.trace, isReplyLabel e = false

/-- The canonical form of everything State holds as cells: the buffer's cells rise and lie inside it, the memory is
canonical, and so is every memory a scheduled reset will bring. -/
structure Canonical (s : State) : Prop where
  bufRising : Cells.rising s.rxBuf = true
  bufInside : ∀ c ∈ s.rxBuf, c.1 < Config.rxCap
  mem : Memory.wf s.mem = true
  env : ∀ l m, EnvEvent.rst l ∈ s.env → l.mem = some m → Memory.wf m = true

/-- The bytes a reply policy pushes. -/
def policyReply : Response → List Byte
  | .nack => [Config.nackMark]
  | .silent => []

/-- The label a reply policy leaves for a cause (R212). -/
def policyLabel (c : Cause) : Response → Event
  | .nack => .nack c
  | .silent => .drop c

/-- `ACK(p)`, R80. -/
def ackBytes (p : List Byte) : List Byte := Config.ackMark :: BitVec.ofNat 8 p.length :: p

/-- The reply a verified command owes (R147, R160 to R178), from the parameters and `MEM` alone. -/
def instrReply (c : Config) (m : List Host.Cell) : Instr → List Byte
  | .getVer _ => ackBytes [c.blVersion]
  | .getHelp _ => ackBytes c.supportedCmds
  | .getCid _ => ackBytes (bytes16 c.byteOrder ((Memory.word m c.chipIdAddr).extractLsb' 0 12 |>.setWidth 16))
  | .getRdp _ => ackBytes [byteOf (Memory.word m c.optionByteAddr) c.rdpByteIndex.val]
  | .goToAddr _ => policyReply c.reservedCmdResponse
  | .flashErase _ => policyReply c.reservedCmdResponse
  | .memWrite _ => policyReply c.reservedCmdResponse
  | .enRwProtect _ => policyReply c.reservedCmdResponse
  | .memRead _ => policyReply c.reservedCmdResponse
  | .readSectorStatus _ => policyReply c.reservedCmdResponse
  | .otpRead _ => policyReply c.reservedCmdResponse
  | .disRwProtect _ => policyReply c.reservedCmdResponse
  | .unknown _ _ => policyReply c.unknownCmdResponse

/-- The two bytes of `GET_CID`'s reply from the word `w` (R162): bits 7:0 and 11:8 of `w`, low byte first under `LITTLE`. -/
def chipIdBytes (o : ByteOrder) (w : Word) : List Byte :=
  match o with
  | .little => [BitVec.ofNat 8 (w.toNat % 256), BitVec.ofNat 8 (w.toNat / 256 % 16)]
  | .big => [BitVec.ofNat 8 (w.toNat / 256 % 16), BitVec.ofNat 8 (w.toNat % 256)]

/-- The trace label of a verified command (R147). -/
def instrLabel (c : Config) : Instr → Event
  | .getVer _ => .ack c.codes.getVer
  | .getHelp _ => .ack c.codes.getHelp
  | .getCid _ => .ack c.codes.getCid
  | .getRdp _ => .ack c.codes.getRdp
  | .goToAddr _ => policyLabel .reserved c.reservedCmdResponse
  | .flashErase _ => policyLabel .reserved c.reservedCmdResponse
  | .memWrite _ => policyLabel .reserved c.reservedCmdResponse
  | .enRwProtect _ => policyLabel .reserved c.reservedCmdResponse
  | .memRead _ => policyLabel .reserved c.reservedCmdResponse
  | .readSectorStatus _ => policyLabel .reserved c.reservedCmdResponse
  | .otpRead _ => policyLabel .reserved c.reservedCmdResponse
  | .disRwProtect _ => policyLabel .reserved c.reservedCmdResponse
  | .unknown _ _ => policyLabel .unknown c.unknownCmdResponse

/-- The `MemRead`s of a verified command (R56, R65). -/
def instrReads (c : Config) : Instr → List Word
  | .getCid _ => [c.chipIdAddr]
  | .getRdp _ => [c.optionByteAddr]
  | .getVer _ | .getHelp _ | .goToAddr _ | .flashErase _ | .memWrite _ | .enRwProtect _ | .memRead _
  | .readSectorStatus _ | .otpRead _ | .disRwProtect _ | .unknown _ _ => []

/-- The reply a whole packet owes (the table of R147). -/
def packetReply (c : Config) (m : List Host.Cell) (pkt : List Byte) : List Byte :=
  match decode c pkt with
  | .ok (i, _) => instrReply c m i
  | .error .badChecksum => [Config.nackMark]
  | .error .short => policyReply c.malformedResponse
  | .error .oversize => policyReply c.malformedResponse
  | .error .truncated => []

/-- The last label of a whole packet (the table of R147). -/
def packetLabel (c : Config) (pkt : List Byte) : Event :=
  match decode c pkt with
  | .ok (i, _) => instrLabel c i
  | .error .badChecksum => .nack .crc
  | .error .short => policyLabel .short c.malformedResponse
  | .error .oversize => policyLabel .oversize c.malformedResponse
  | .error .truncated => .byte

/-- The `MemRead`s of a whole packet (R65). -/
def packetReads (c : Config) (pkt : List Byte) : List Word :=
  match decode c pkt with
  | .ok (i, _) => instrReads c i
  | .error _ => []

/-- A whole packet in the sense of R72: a length byte and as many bytes as it says. -/
def WholePacket (pkt : List Byte) : Prop := ∃ l body, pkt = l :: body ∧ body.length = l.toNat

/-- The labels of a whole packet, in order (R101 to R104, R212): the length byte, one per following byte, the outcome. -/
def packetTrace (c : Config) (pkt : List Byte) : List Event :=
  .len (pkt.headD 0) :: (List.replicate (pkt.length - 1) Event.byte ++ [packetLabel c pkt])

/-- In `s`, all of the packet `pkt` but its last byte is received, and that byte is next on `rx`, `rest` after it. -/
structure LastByteNext (s : State) (pkt : List Byte) (rest : List Byte) : Prop where
  loop : s.mode = .cmdLoop
  recv : s.fsm = .recv
  whole : WholePacket pkt
  len : pkt.head? = some s.rxLen
  nonzero : s.rxLen ≠ 0
  cnt : s.rxCnt = s.rxLen.toNat
  cells : ∀ i, i < s.rxCnt → Cells.get? s.rxBuf i = pkt[i]?
  next : ∃ b, pkt.getLast? = some b ∧ s.rx = b :: rest
  crc : s.crcAcc = s.cfg.crcInit

/-- The state in which the last byte of a packet has been stored, before the completion procedure (R103). -/
def received (s : State) (b : Byte) (rest : List Byte) : State :=
  { s with
    rx := rest
    rxBuf := Cells.set s.rxBuf s.rxCnt b
    rxCnt := s.rxCnt + 1
    trace := s.trace ++ [.byte] }

/-- An outside event other than `rst` and `rx_timeout`, or the block's turn (R108). -/
def quietEvent : EnvEvent → Bool
  | .block => true
  | .hostSend _ => true
  | .rst _ => false
  | .rxTimeout => false
  | .setBootSel _ => true
  | .setInitOk _ => true

/-- The bytes the host appends over a schedule, in order (R34). -/
def sends : List EnvEvent → List Byte
  | [] => []
  | .hostSend b :: rest => b :: sends rest
  | .block :: rest => sends rest
  | .rst _ :: rest => sends rest
  | .rxTimeout :: rest => sends rest
  | .setBootSel _ :: rest => sends rest
  | .setInitOk _ :: rest => sends rest

/-- The Packet Reader's steps for a byte sequence, without the streams and the schedule. -/
def feed : List Byte → State → Host.Outcome State Fault Refusal
  | [], s => .next s
  | b :: bs, s => andThen (readByte b s) (feed bs)

/-- What of a state the outside agents do not write: everything but the receive stream, the levels, the schedule. -/
def inside (s : State) : State := { s with rx := [], initOk := false, bootSel := false, env := [] }

end Sys2Proof
end

