-- ==== Sys2Proof/Certificates/Slice0/Obligations.lean ====
section
/-! DEFINITION. The statements for the provers, from the numbered rules of spec/. -/

open Sys2Proof Sys2Proof.Machine

/-! ## Reset and boot -/

/-- R240, R241: in any state, the event `rst` writes the block's registers, appends `EV_RESET`, leaves `tx` and the
parameters as they are, and lets the environment choose `rx`, `init_ok`, `boot_sel` and `MEM`. -/
def Obligations.ResetEventWritesTheBlock : Prop :=
  ∀ (s : State) (l : Launch) (rest : List EnvEvent), s.env = .rst l :: rest →
    ∃ t, step s = .next t ∧
      t.mode = .reset ∧ t.fsm = .waitLen ∧ (∀ i, Cells.get? t.rxBuf i = none) ∧
      t.rxLen = 0 ∧ t.rxCnt = 0 ∧ t.drainRem = 0 ∧ t.crcAcc = s.cfg.crcInit ∧
      t.hoValid = false ∧ t.hoSp = none ∧ t.hoEntry = none ∧
      t.trace = s.trace ++ [.reset] ∧ t.tx = s.tx ∧ t.cfg = s.cfg ∧ t.reads = s.reads ∧
      t.rx = l.rx.getD s.rx ∧ t.initOk = l.initOk.getD s.initOk ∧ t.bootSel = l.bootSel.getD s.bootSel ∧
      t.mem = l.mem.getD s.mem ∧ t.env = rest

/-- The state after reset meets the invariants of R44 and the canonical form of the model's lists; its parameters
meet R8. (The launch inputs of State.reset are the model's choice, log 9; none of them is used here but the empty
lists.) -/
def Obligations.ResetStateMeetsInvariants : Prop :=
  Inv State.reset ∧ Canonical State.reset ∧ State.reset.cfg.wf = true

/-- R191: with `init_ok` = 0 the boot step halts with cause `E_INIT`, whatever `boot_sel` is, and changes nothing else:
no byte is sent, no word is read. -/
def Obligations.BootWithoutInitHalts : Prop :=
  ∀ s s' : State, BlockTurn s s' → s'.mode = .reset → s'.initOk = false →
    step s = .next { s' with mode := .halt, trace := s'.trace ++ [.halt .init] }

/-- R193, R190: with `init_ok` = 1 and `boot_sel` = 1 the boot step enters the command loop; no word is read. From a
state that meets the invariants the buffer is empty and the accumulator fresh on entry. -/
def Obligations.BootAssertedEntersCommandLoop : Prop :=
  ∀ s s' : State, BlockTurn s s' → s'.mode = .reset → s'.initOk = true → s'.bootSel = true →
    ∃ t, step s = .next t ∧
      t = { s' with mode := .cmdLoop, fsm := .waitLen, trace := s'.trace ++ [.bootCmdLoop] } ∧
      (Inv s → Idle t ∧ t.crcAcc = t.cfg.crcInit)

/-- R194 to R197, R65: with `boot_sel` = 0 and an accepted first word, the two words at `APP_BASE` and `APP_BASE + 4` are
read in that order and become, unchanged, the hand-off outputs; the default `SP_VALID` accepts every word. The outputs
and their being unchanged are the spec's decisions D28 and D29; the clause about the default is decision D21 and rests
on the default parameters (log 2, PRESUMED). -/
def Obligations.BootDeassertedHandsOff : Prop :=
  (∀ sp : Word, Config.default.spValid sp = true) ∧
  ∀ s s' : State, BlockTurn s s' → s'.mode = .reset → s'.initOk = true → s'.bootSel = false →
    s'.cfg.spValid (Memory.word s'.mem s'.cfg.appBase) = true →
    step s = .next
      { s' with
        mode := .appJump
        hoValid := true
        hoSp := some (Memory.word s'.mem s'.cfg.appBase)
        hoEntry := some (Memory.word s'.mem (s'.cfg.appBase + 4))
        reads := s'.reads ++ [s'.cfg.appBase, s'.cfg.appBase + 4]
        trace := s'.trace ++
          [.handoff (Memory.word s'.mem s'.cfg.appBase) (Memory.word s'.mem (s'.cfg.appBase + 4))] }

/-- R198: when `SP_VALID` rejects the first word the boot step halts with cause `E_BADSP`; the second word is not read
and no hand-off output is written. -/
def Obligations.BootRejectedStackPointerHalts : Prop :=
  ∀ s s' : State, BlockTurn s s' → s'.mode = .reset → s'.initOk = true → s'.bootSel = false →
    s'.cfg.spValid (Memory.word s'.mem s'.cfg.appBase) = false →
    step s = .next
      { s' with
        mode := .halt
        reads := s'.reads ++ [s'.cfg.appBase]
        trace := s'.trace ++ [.halt .badSp] }

/-- R57, R8 (f), R7: every address the block reads is a multiple of 4, and `APP_BASE + 4` does not wrap. -/
def Obligations.ReadAddressesAreAligned : Prop :=
  ∀ c : Config, c.appBase.toNat % 4 = 0 ∧ (c.appBase + 4).toNat = c.appBase.toNat + 4 ∧
    c.chipIdAddr.toNat % 4 = 0 ∧ c.optionByteAddr.toNat % 4 = 0

/-- R199, R200, R259: after a hand-off or a halt, as long as no `rst` comes, any number of steps leaves the mode, the
hand-off outputs, `tx`, the trace and the record of reads as they are, and consumes nothing from `rx`. The halt (R200) is
the spec's own reading, decision D20. -/
def Obligations.TerminalModesAreInert : Prop :=
  ∀ (n : Nat) (s t : State), (s.mode = .appJump ∨ s.mode = .halt) → (∀ l, EnvEvent.rst l ∉ s.env) →
    runs n s = .next t →
    t.mode = s.mode ∧ t.hoValid = s.hoValid ∧ t.hoSp = s.hoSp ∧ t.hoEntry = s.hoEntry ∧ t.tx = s.tx ∧
      t.trace = s.trace ∧ t.reads = s.reads ∧ s.rx <+: t.rx

/-- R201 and I7 of R44: a run without `rst` that starts outside the command loop and ends outside it has pushed nothing
to `tx` and consumed nothing from `rx`, even if `rx` already holds bytes when the boot step runs. R201 is about the jump
path; that a halt consumes nothing is R200, the spec's own reading (decision D20), and I7 is marked derived there. -/
def Obligations.NothingSentOutsideCommandLoop : Prop :=
  ∀ (n : Nat) (s t : State), s.mode ≠ .cmdLoop → (∀ l, EnvEvent.rst l ∉ s.env) → runs n s = .next t →
    t.mode ≠ .cmdLoop → t.tx = s.tx ∧ s.rx <+: t.rx

/-! ## The outside agents -/

/-- R34, R38, R40, R21: the host appends at the tail of `rx`; a level change changes that level; neither touches
anything else. -/
def Obligations.OutsideEventsTouchOnlyTheirPort : Prop :=
  ∀ (s : State) (rest : List EnvEvent),
    (∀ b, s.env = .hostSend b :: rest → step s = .next { s with rx := s.rx ++ [b], env := rest }) ∧
    (∀ v, s.env = .setBootSel v :: rest → step s = .next { s with bootSel := v, env := rest }) ∧
    (∀ v, s.env = .setInitOk v :: rest → step s = .next { s with initOk := v, env := rest })

/-- R106, R41: `rx_timeout`, when `RX_TIMEOUT_EN` is true and a packet is partly received, drops it without a reply and
re-arms; in `F_WAIT_LEN`, outside the command loop, and with `RX_TIMEOUT_EN` false it has no effect. -/
def Obligations.TimeoutDropsPartialPacket : Prop :=
  ∀ (s : State) (rest : List EnvEvent), s.env = .rxTimeout :: rest →
    (s.cfg.rxTimeoutEn = true → s.mode = .cmdLoop → s.fsm = .recv ∨ s.fsm = .drain →
      step s = .next { s with fsm := .waitLen, rxBuf := [], rxCnt := 0, drainRem := 0,
                              trace := s.trace ++ [.drop .timeout], env := rest }) ∧
    (s.cfg.rxTimeoutEn = false ∨ s.mode ≠ .cmdLoop ∨ s.fsm = .waitLen → step s = .next { s with env := rest })

/-! ## The Packet Reader -/

/-- R105: in the command loop with `rx` empty the block does nothing. -/
def Obligations.EmptyStreamWaits : Prop :=
  ∀ s s' : State, BlockTurn s s' → s'.mode = .cmdLoop → s'.rx = [] → step s = .next s'

/-- R101: a length byte `l` other than 0 with `l + 1 ≤ RX_CAP` is latched, stored in cell 0, and `F_RECV` entered. -/
def Obligations.LengthByteAccepted : Prop :=
  ∀ (s s' : State) (l : Byte) (rest : List Byte), BlockTurn s s' → s'.mode = .cmdLoop → s'.fsm = .waitLen →
    s'.rx = l :: rest → l.toNat + 1 ≤ 200 → l ≠ 0 →
    step s = .next { s' with rx := rest, rxLen := l, rxBuf := Cells.set s'.rxBuf 0 l, rxCnt := 1, fsm := .recv,
                             trace := s'.trace ++ [.len l] }

/-- R101, R141: the length byte 0 completes a packet of one byte in the same step: malformed, answered by
`MALFORMED_RESPONSE`, and the reader re-armed. -/
def Obligations.ZeroLengthPacketIsShort : Prop :=
  ∀ (s s' : State) (rest : List Byte), BlockTurn s s' → s'.mode = .cmdLoop → s'.fsm = .waitLen →
    s'.rx = 0 :: rest →
    step s = .next { s' with rx := rest, rxLen := 0, rxBuf := [], rxCnt := 0, drainRem := 0,
                             tx := s'.tx ++ policyReply s'.cfg.malformedResponse,
                             trace := s'.trace ++ [.len 0, policyLabel .short s'.cfg.malformedResponse] }

/-- R102: a length byte with `l + 1 > RX_CAP` writes no cell; its `l` bytes are to be discarded. -/
def Obligations.OversizeLengthByteStartsDrain : Prop :=
  ∀ (s s' : State) (l : Byte) (rest : List Byte), BlockTurn s s' → s'.mode = .cmdLoop → s'.fsm = .waitLen →
    s'.rx = l :: rest → 200 < l.toNat + 1 →
    step s = .next { s' with rx := rest, rxLen := l, drainRem := l.toNat, fsm := .drain,
                             trace := s'.trace ++ [.len l] }

/-- R103: a following byte is stored at index `rx_cnt`, whatever its value; with the last one, at index `rx_len`, the
packet is complete and the completion procedure runs in the same step. -/
def Obligations.BodyByteStored : Prop :=
  ∀ (s s' : State) (b : Byte) (rest : List Byte), BlockTurn s s' → s'.mode = .cmdLoop → s'.fsm = .recv →
    s'.rx = b :: rest → s'.rxCnt < 200 →
    (s'.rxCnt ≠ s'.rxLen.toNat →
      step s = .next { s' with rx := rest, rxBuf := Cells.set s'.rxBuf s'.rxCnt b, rxCnt := s'.rxCnt + 1,
                               trace := s'.trace ++ [.byte] }) ∧
    (s'.rxCnt = s'.rxLen.toNat →
      step s = completePacket { s' with rx := rest, rxBuf := Cells.set s'.rxBuf s'.rxCnt b, rxCnt := s'.rxCnt + 1,
                                        trace := s'.trace ++ [.byte] })

/-- R104: a byte of an oversize packet is discarded; with the last one `E_OVERSIZE` is answered by
`MALFORMED_RESPONSE` and the reader re-armed. -/
def Obligations.DrainDiscardsThenRejects : Prop :=
  ∀ (s s' : State) (b : Byte) (rest : List Byte), BlockTurn s s' → s'.mode = .cmdLoop → s'.fsm = .drain →
    s'.rx = b :: rest →
    (1 < s'.drainRem →
      step s = .next { s' with rx := rest, drainRem := s'.drainRem - 1, trace := s'.trace ++ [.byte] }) ∧
    (s'.drainRem = 1 →
      step s = .next { s' with rx := rest, drainRem := 0, rxCnt := 0, rxBuf := [], fsm := .waitLen,
                               tx := s'.tx ++ policyReply s'.cfg.malformedResponse,
                               trace := s'.trace ++ [.byte, policyLabel .oversize s'.cfg.malformedResponse] })

/-- R109: no step writes `rx_buf` at an index of `RX_CAP` or above. -/
def Obligations.NoCellWrittenOutsideBuffer : Prop :=
  ∀ s t : State, step s = .next t →
    ∀ i v, Cells.get? t.rxBuf i = some v → Cells.get? s.rxBuf i = some v ∨ i < 200

/-- R34, R62: on its turn the block consumes at most one byte of `rx`, and that the oldest. -/
def Obligations.StreamConsumedFromHead : Prop :=
  ∀ s s' t : State, BlockTurn s s' → step s = .next t → t.rx = s'.rx ∨ ∃ b, s'.rx = b :: t.rx

/-- R63, R64: a block step pushes a reply only when it takes the last byte of a packet (the length byte 0, the last body
byte, the last discarded byte), and then the reader is idle again: no packet is answered before it is wholly received,
and every reply stands on `tx` before the next packet's first byte is taken. -/
def Obligations.ReplyOnlyWhenPacketEnds : Prop :=
  ∀ s s' t : State, Inv s → BlockTurn s s' → step s = .next t → t.tx ≠ s'.tx →
    Idle t ∧
    ((s'.fsm = .waitLen ∧ s'.rx.head? = some 0) ∨ (s'.fsm = .recv ∧ s'.rxCnt = s'.rxLen.toNat) ∨
      (s'.fsm = .drain ∧ s'.drainRem = 1))

/-! ## Completion -/

/-- R141: a packet of length 1 to 4, its last byte arriving, is rejected without verification, decoding or `MemRead`. -/
def Obligations.ShortPacketRejected : Prop :=
  ∀ (s s' : State) (b : Byte) (rest : List Byte), BlockTurn s s' → s'.mode = .cmdLoop → s'.fsm = .recv →
    s'.rx = b :: rest → s'.rxCnt = s'.rxLen.toNat → s'.rxLen.toNat < 5 →
    step s = .next { s' with rx := rest, rxBuf := [], rxCnt := 0, drainRem := 0, fsm := .waitLen,
                             tx := s'.tx ++ policyReply s'.cfg.malformedResponse,
                             trace := s'.trace ++ [.byte, policyLabel .short s'.cfg.malformedResponse] }

/-- R142: a packet whose checksum is wrong is answered by the one byte `7F`, under every policy, and nothing else
happens: no `MemRead`, no handler. The re-arming is R107 (decision D18). -/
def Obligations.ChecksumFailureAnswersNack : Prop :=
  ∀ (s s' : State) (pkt rest : List Byte), BlockTurn s s' → LastByteNext s' pkt rest →
    decode s'.cfg pkt = .error .badChecksum →
    step s = .next { s' with rx := rest, rxBuf := [], rxCnt := 0, drainRem := 0, fsm := .waitLen,
                             tx := s'.tx ++ [0x7F], trace := s'.trace ++ [.byte, .nack .crc] }

/-- R140, R143: a step runs the decoded instruction. When the packet in `rx_buf` and the byte next on `rx` decode to
`i`, the step stores the byte, runs `exec i`, and re-arms. -/
def Obligations.StepRunsDecodedPacket : Prop :=
  ∀ (s s' : State) (pkt rest : List Byte) (i : Instr) (b : Byte), BlockTurn s s' → LastByteNext s' pkt rest →
    pkt.getLast? = some b → decode s'.cfg pkt = .ok (i, []) →
    step s = andThen (exec i (received s' b rest)) fun u => .next (rearm u)

/-- R144, R145: `send_ack` pushes the header `A5 n` and the `n` bytes, at most 255, `send_nack` the one byte `7F`, and
neither touches anything else. -/
def Obligations.EncoderPushesTwoForms : Prop :=
  ∀ (s : State) (p : List Byte),
    (p.length ≤ 255 → sendAck p s = .next { s with tx := s.tx ++ [0xA5, BitVec.ofNat 8 p.length] ++ p }) ∧
    sendNack s = { s with tx := s.tx ++ [0x7F] }

/-! ## Instructions -/

/-- R160: `GET_VER` answers `A5 01 <BL_VERSION>`, whatever its payload. -/
def Obligations.GetVerAnswersVersion : Prop :=
  ∀ (p : List Byte) (s : State), exec (.getVer p) s =
    .next { s with tx := s.tx ++ [0xA5, 0x01, s.cfg.blVersion], trace := s.trace ++ [.ack s.cfg.codes.getVer] }

/-- R161: `GET_HELP` answers `A5 <N_SUPPORTED>` and the Supported Command Set in its order, whatever its payload, under
R8 (e). -/
def Obligations.GetHelpAnswersCommandSet : Prop :=
  ∀ (p : List Byte) (s : State), s.cfg.supportedCmds.length ≤ 255 →
    exec (.getHelp p) s =
      .next { s with
        tx := s.tx ++ [0xA5, BitVec.ofNat 8 s.cfg.supportedCmds.length] ++ s.cfg.supportedCmds
        trace := s.trace ++ [.ack s.cfg.codes.getHelp] }

/-- R162: `GET_CID` reads the word at `CHIP_ID_ADDR` once and answers `A5 02` and its low twelve bits as two bytes in
`BYTE_ORDER`; bits 31:12 never reach the host. -/
def Obligations.GetCidAnswersIdentifier : Prop :=
  ∀ (p : List Byte) (s : State), exec (.getCid p) s =
    .next { s with
      tx := s.tx ++ [0xA5, 0x02] ++ chipIdBytes s.cfg.byteOrder (Memory.word s.mem s.cfg.chipIdAddr)
      reads := s.reads ++ [s.cfg.chipIdAddr]
      trace := s.trace ++ [.ack s.cfg.codes.getCid] }

/-- R163: `GET_RDP` reads the word at `OPTION_BYTE_ADDR` once and answers `A5 01` and its byte `RDP_BYTE_INDEX`. -/
def Obligations.GetRdpAnswersProtectionByte : Prop :=
  ∀ (p : List Byte) (s : State), exec (.getRdp p) s =
    .next { s with
      tx := s.tx ++ [0xA5, 0x01,
        BitVec.ofNat 8 ((Memory.word s.mem s.cfg.optionByteAddr).toNat / 256 ^ s.cfg.rdpByteIndex.val % 256)]
      reads := s.reads ++ [s.cfg.optionByteAddr]
      trace := s.trace ++ [.ack s.cfg.codes.getRdp] }

/-- R168, R170 to R177: each of the eight reserved commands, whatever its payload, answers by
`RESERVED_CMD_RESPONSE` and changes nothing but `tx` and the trace. -/
def Obligations.ReservedCommandsRaiseReserved : Prop :=
  ∀ (p : List Byte) (s : State) (i : Instr),
    i ∈ [Instr.goToAddr p, .flashErase p, .memWrite p, .enRwProtect p, .memRead p, .readSectorStatus p, .otpRead p,
         .disRwProtect p] →
    (s.cfg.reservedCmdResponse = .nack →
      exec i s = .next { s with tx := s.tx ++ [0x7F], trace := s.trace ++ [.nack .reserved] }) ∧
    (s.cfg.reservedCmdResponse = .silent → exec i s = .next { s with trace := s.trace ++ [.drop .reserved] })

/-- R178: an unknown command, whatever its code and payload, answers by `UNKNOWN_CMD_RESPONSE` and changes nothing but
`tx` and the trace. -/
def Obligations.UnknownCommandRaisesUnknown : Prop :=
  ∀ (code : Byte) (p : List Byte) (s : State),
    (s.cfg.unknownCmdResponse = .nack →
      exec (.unknown code p) s = .next { s with tx := s.tx ++ [0x7F], trace := s.trace ++ [.nack .unknown] }) ∧
    (s.cfg.unknownCmdResponse = .silent →
      exec (.unknown code p) s = .next { s with trace := s.trace ++ [.drop .unknown] })

/-- R165 for the four handlers, R168 (decision D15), R178 (decision D14) and R79 for the other nine: the frame of every
command: when `exec` answers a next state, every register, the receive stream, the levels, the schedule and the
parameters are as before, and every byte of `MEM` reads as before. What the instruction writes are `tx`, one trace
label and at most one `MemRead`; an implemented command's reply is one Acknowledge. -/
def Obligations.CommandsChangeOnlyReplyAndRecords : Prop :=
  ∀ (i : Instr) (s t : State), exec i s = .next t →
    (t.cfg = s.cfg ∧ t.mode = s.mode ∧ t.fsm = s.fsm ∧ t.rxBuf = s.rxBuf ∧ t.rxLen = s.rxLen ∧ t.rxCnt = s.rxCnt ∧
      t.drainRem = s.drainRem ∧ t.crcAcc = s.crcAcc ∧ t.hoValid = s.hoValid ∧ t.hoSp = s.hoSp ∧
      t.hoEntry = s.hoEntry ∧ t.rx = s.rx ∧ t.initOk = s.initOk ∧ t.bootSel = s.bootSel ∧ t.env = s.env) ∧
    (∀ a, Memory.read t.mem a = Memory.read s.mem a) ∧
    (t.reads = s.reads ∨ ∃ a, t.reads = s.reads ++ [a]) ∧
    (∃ e, t.trace = s.trace ++ [e]) ∧
    (∃ out, t.tx = s.tx ++ out) ∧
    (∀ p, i ∈ [Instr.getVer p, .getHelp p, .getCid p, .getRdp p] → ∃ q, t.tx = s.tx ++ ackBytes q)

/-- R166, R80: a positive reply is `A5`, a count, and exactly that many bytes: 1 for the version, `N_SUPPORTED` for the
command list, 2 for the identifier, 1 for the protection level. -/
def Obligations.PositiveRepliesHaveFixedSizes : Prop :=
  ∀ (p : List Byte) (s t : State) (i : Instr) (n : Nat),
    (i, n) ∈ [(Instr.getVer p, 1), (.getHelp p, s.cfg.supportedCmds.length), (.getCid p, 2), (.getRdp p, 1)] →
    exec i s = .next t →
    ∃ q : List Byte, t.tx = s.tx ++ 0xA5 :: BitVec.ofNat 8 n :: q ∧ q.length = n ∧ n ≤ 255

/-- R144, R80, R8 (e): a command list longer than 255 bytes, which R8 excludes, is answered by no Acknowledge: the
model stops by name (log 15). -/
def Obligations.OverlongCommandSetStops : Prop :=
  ∀ (p : List Byte) (s : State), 255 < s.cfg.supportedCmds.length →
    exec (.getHelp p) s = .fault (.replyTooLong s.cfg.supportedCmds.length)

/-! ## Errors -/

/-- R210, R146: every packet-level cause, raised and re-armed, leaves `mode` and emits exactly its row's reply and
label: `E_OVERSIZE` and `E_SHORT` by `MALFORMED_RESPONSE`, `E_TIMEOUT` nothing, `E_CRC` always `7F`, `E_RESERVED` and
`E_UNKNOWN` by their own policies. The halting causes emit nothing and halt. -/
def Obligations.EveryCauseFollowsItsRow : Prop :=
  ∀ s : State,
    (∀ c r, (c, r) ∈ [(Cause.oversize, s.cfg.malformedResponse), (.short, s.cfg.malformedResponse),
        (.timeout, Response.silent), (.crc, .nack), (.reserved, s.cfg.reservedCmdResponse),
        (.unknown, s.cfg.unknownCmdResponse)] →
      rearm (raise c s) = { s with
        tx := s.tx ++ policyReply r
        trace := s.trace ++ [policyLabel c r]
        fsm := .waitLen
        rxCnt := 0
        drainRem := 0
        rxBuf := [] }) ∧
    (∀ c, c ∈ [Cause.init, .badSp] → raise c s = { s with mode := .halt, trace := s.trace ++ [.halt c] })

/-! ## Byte order and checksum -/

/-- R52: `word32` by the two formulas of the rule. -/
def Obligations.WordAssembledByFormula : Prop :=
  ∀ b0 b1 b2 b3 : Byte,
    (word32 .little b0 b1 b2 b3).toNat
      = b0.toNat + b1.toNat * 2 ^ 8 + b2.toNat * 2 ^ 16 + b3.toNat * 2 ^ 24 ∧
    (word32 .big b0 b1 b2 b3).toNat
      = b0.toNat * 2 ^ 24 + b1.toNat * 2 ^ 16 + b2.toNat * 2 ^ 8 + b3.toNat

/-- R53: `bytes32` and `word32` are inverse to each other, in both byte orders. -/
def Obligations.SplitAndAssembleAreInverse : Prop :=
  ∀ o : ByteOrder,
    (∀ b0 b1 b2 b3, bytes32 o (word32 o b0 b1 b2 b3) = [b0, b1, b2, b3]) ∧
    (∀ w, ∃ b0 b1 b2 b3, bytes32 o w = [b0, b1, b2, b3] ∧ word32 o b0 b1 b2 b3 = w)

/-- R122: `crc_step` depends on `acc ^ w` only; `crc_step(0, 0) = 0`; `crc_step(0, 1) = CRC_POLY`; and one accumulated
word of the rule's example. -/
def Obligations.CrcStepCorners : Prop :=
  (∀ poly acc acc' w w' : Word, acc ^^^ w = acc' ^^^ w' → crcStep poly acc w = crcStep poly acc' w') ∧
  (∀ poly : Word, crcStep poly 0 0 = 0 ∧ crcStep poly 0 1 = poly) ∧
  crcStep 0x04C11DB7 0xFFFFFFFF 0x00000005 = 0xD0C1B610

/-- R124, R125: a verification from a fresh accumulator is true exactly when the host's word is `crc32w` of the covered
bytes; every verification, true or false and from whatever accumulator, leaves `crc_acc` at `CRC_INIT` and nothing
else changed, so the next one depends on its own bytes only. -/
def Obligations.VerificationIsIsolated : Prop :=
  ∀ (covered : List Byte) (crc : Word) (s : State),
    (s.crcAcc = s.cfg.crcInit → ((verify covered crc s).1 = true ↔ crc = crc32w s.cfg covered)) ∧
    (verify covered crc s).2 = { s with crcAcc := s.cfg.crcInit } ∧
    ∀ covered' crc', (verify covered' crc' (verify covered crc s).2).1 = decide (crc' = crc32w s.cfg covered')

/-- R126: with a polynomial whose bit 0 is 1 (the default's is), flipping one bit of one covered byte changes
`crc32w`. -/
def Obligations.CoveredBitFlipChangesChecksum : Prop :=
  ∀ (c : Config), c.crcPoly.getLsbD 0 = true →
    ∀ (pre post : List Byte) (b : Byte) (k : Nat), k < 8 →
      crc32w c (pre ++ (b ^^^ BitVec.ofNat 8 (2 ^ k)) :: post) ≠ crc32w c (pre ++ b :: post)

/-- R126, S1: a well-formed packet with a correct checksum is refused after any flip of one bit of its bytes 1 to `L`,
the checksum bytes included, when bit 0 of the polynomial is 1. -/
def Obligations.SingleBitFlipIsRefused : Prop :=
  ∀ (c : Config), c.crcPoly.getLsbD 0 = true →
    ∀ (l : Byte) (pre post : List Byte) (b : Byte) (k : Nat) (i : Instr), k < 8 →
      decode c (l :: (pre ++ b :: post)) = .ok (i, []) →
      decode c (l :: (pre ++ (b ^^^ BitVec.ofNat 8 (2 ^ k)) :: post)) = .error .badChecksum

/-! ## Decoding -/

/-- R77, the table's shortest encodings: some packets written out byte by byte decode to their instructions. A sanity
statement over fixed bytes, under the default parameters. -/
def Obligations.TablePacketsDecode : Prop :=
  decode Config.default [0x05, 0x51, 0xE7, 0xE9, 0xAB, 0x7C] = .ok (.getVer [], []) ∧
  decode Config.default [0x05, 0x56, 0xE2, 0xB9, 0xEC, 0x62] = .ok (.flashErase [], []) ∧
  decode Config.default [0x05, 0x00, 0x57, 0x5F, 0xFD, 0x00] = .ok (.unknown 0x00 [], [])

/-- R84, R78: decoding the packet of a well-formed instruction gives the instruction back with the bytes after it, for
every instruction, payload and unknown code, and every instance of the parameters with distinct codes. -/
def Obligations.DecodeEncodeGivesBack : Prop :=
  ∀ (c : Config) (i : Instr) (rest : List Byte), c.codesDistinct = true → i.wf c = true →
    decode c (encode c i ++ rest) = .ok (i, rest)

/-- R70, R75, R76: whatever decodes is the packet of what it decodes to: no two byte sequences of one packet stand for
one instruction, and what is decoded is well-formed. -/
def Obligations.DecodedBytesAreTheEncoding : Prop :=
  ∀ (c : Config) (bs rest : List Byte) (i : Instr), decode c bs = .ok (i, rest) →
    bs = encode c i ++ rest ∧ i.wf c = true

/-- R73, R78: the class of a packet is read from its length byte: oversize at once, short when its bytes are there,
whatever they are; and a packet whose bytes are not all there is never decoded. That an unfinished packet with a short
length byte is named truncated and not short is the model's order of rejections (log 14, DESIGN CHOICE). -/
def Obligations.LengthClassesRejected : Prop :=
  ∀ (c : Config) (l : Byte) (tl : List Byte),
    (200 < l.toNat + 1 → decode c (l :: tl) = .error .oversize) ∧
    (l.toNat < 5 → l.toNat ≤ tl.length → decode c (l :: tl) = .error .short) ∧
    (l.toNat + 1 ≤ 200 → tl.length < l.toNat → decode c (l :: tl) = .error .truncated)

/-! ## The whole machine -/

/-- R44: every step keeps I1 to I7 and R30's rule for the hand-off outputs, from every state that meets them. -/
def Obligations.StepKeepsInvariant : Prop :=
  ∀ s t : State, Inv s → step s = .next t → Inv t

/-- Every step keeps the canonical form of the buffer and of `MEM` (the model's own lists, log 4 and log 10). -/
def Obligations.StepKeepsCanonicalForm : Prop :=
  ∀ s t : State, Canonical s → step s = .next t → Canonical t

/-- R148, R213, R25: in a state that meets the invariants, with parameters that meet R8, a step never stops: no fault,
no refusal, in particular no read of a cell without a value. -/
def Obligations.StepNeverStops : Prop :=
  ∀ s : State, Inv s → s.cfg.wf = true → ∃ t, step s = .next t

/-- R148, R220: `mode` changes only in the boot step and by `rst`. -/
def Obligations.ModeChangesOnlyByBootOrReset : Prop :=
  ∀ s t : State, step s = .next t → t.mode ≠ s.mode →
    (s.mode = .reset ∧ ∃ s', BlockTurn s s') ∨ (∃ l rest, s.env = .rst l :: rest ∧ t.mode = .reset)

/-- R56: a step presents no address on `read_word` but the four of the rule. -/
def Obligations.OnlyFourAddressesRead : Prop :=
  ∀ s t : State, step s = .next t →
    ∃ new, t.reads = s.reads ++ new ∧
      ∀ a ∈ new, a ∈ [s.cfg.chipIdAddr, s.cfg.optionByteAddr, s.cfg.appBase, s.cfg.appBase + 4]

/-- R58, R55, R46: no step but `rst` changes a byte of `MEM`, and no step changes a parameter. That outside events leave
`MEM` as it is between resets is the spec's decision D30; that the parameters are data of State which no step changes
is the model's form of R46 (log 1, DESIGN CHOICE). -/
def Obligations.MemoryAndParametersFixed : Prop :=
  ∀ s t : State, step s = .next t →
    t.cfg = s.cfg ∧ ((∀ l rest, s.env ≠ .rst l :: rest) → ∀ a, Memory.read t.mem a = Memory.read s.mem a)

/-- R82, R80, R81, R150: a step pushes to `tx` nothing, or the one byte `7F`, or one whole Acknowledge, and never
takes anything back; and bytes are pushed only by a step that leaves the label of a reply. That a reply is pushed whole
within one step is the spec's granularity (R13, decision D2; log 17, unsafe). -/
def Obligations.OneReplyAtMostPerStep : Prop :=
  ∀ s t : State, step s = .next t →
    ∃ out, t.tx = s.tx ++ out ∧
      (out = [] ∨ (out = [0x7F] ∧ ∃ c, t.trace.getLast? = some (.nack c)) ∨
        ((∃ p, out = ackBytes p ∧ p.length ≤ 255) ∧ ∃ code, t.trace.getLast? = some (.ack code)))

/-- R149, R82: in the command loop a `MemRead` or an Acknowledge comes only from a step that completes a packet with a
correct checksum and one of the four implemented codes. -/
def Obligations.DisclosureOnlyAfterVerification : Prop :=
  ∀ s s' t : State, Inv s → BlockTurn s s' → s'.mode = .cmdLoop → step s = .next t →
    (t.reads ≠ s'.reads ∨ ∃ p, t.tx = s'.tx ++ ackBytes p) →
    ∃ pkt rest i p, LastByteNext s' pkt rest ∧ decode s'.cfg pkt = .ok (i, []) ∧
      i ∈ [Instr.getVer p, .getHelp p, .getCid p, .getRdp p]

/-- R149, R43: a block step that issues no `MemRead` behaves the same for every content of `MEM`. -/
def Obligations.NoReadNoDisclosure : Prop :=
  ∀ (s t : State) (m : List Host.Cell), s.env = [] → step s = .next t → t.reads = s.reads →
    step { s with mem := m } = .next { t with mem := m }

/-- R192: the decision table of the boot step, by `init_ok`, `boot_sel` and `SP_VALID` of the first word: the next mode
and the `MemRead`s; and `boot_sel` is read nowhere else: after the boot step its level has no effect.
The halts are the spec's decisions D20 and D21. -/
def Obligations.BootDecisionFollowsTable : Prop :=
  (∀ s s' : State, BlockTurn s s' → s'.mode = .reset →
    ∃ t, step s = .next t ∧
      (t.mode, t.reads) =
        if s'.initOk = false then (Mode.halt, s'.reads)
        else if s'.bootSel = true then (Mode.cmdLoop, s'.reads)
        else if s'.cfg.spValid (Memory.word s'.mem s'.cfg.appBase) = true then
          (Mode.appJump, s'.reads ++ [s'.cfg.appBase, s'.cfg.appBase + 4])
        else (Mode.halt, s'.reads ++ [s'.cfg.appBase])) ∧
  (∀ (s t : State) (v : Bool), s.env = [] → s.mode ≠ .reset → step s = .next t →
    step { s with bootSel := v } = .next { t with bootSel := v })

/-- R36: no rule reads the trace: with another trace a step does the same to everything else, and appends the same
labels. -/
def Obligations.TraceIsNeverRead : Prop :=
  ∀ (s t : State) (tr : List Event), step s = .next t →
    ∃ new, t.trace = s.trace ++ new ∧ step { s with trace := tr } = .next { t with trace := tr ++ new }

/-- R261, R36: an enabled step of the block is taken on its turn and leaves at least one label; with none enabled the
state stays as it is (log 8). -/
def Obligations.EnabledStepIsTaken : Prop :=
  ∀ s s' : State, Inv s → s.cfg.wf = true → BlockTurn s s' →
    (enabledStep s' ≠ none → ∃ t, step s = .next t ∧ s'.trace.length < t.trace.length) ∧
    (enabledStep s' = none → step s = .next s')

/-! ## Packets and sessions -/

/-- R108, R107, R147: from an idle block in the command loop, a whole packet on `rx`, of any length byte from 0 to 255,
is consumed in exactly `L + 1` steps; the block is idle again, has pushed exactly the reply the packet owes and issued
exactly its `MemRead`s, and nothing else differs but `rx_len` and the trace. That the
reply is whole is the spec's granularity (R13, decision D2; log 17, unsafe). -/
def Obligations.WholePacketAnswered : Prop :=
  ∀ (s : State) (pkt rest : List Byte), Inv s → s.cfg.wf = true → s.mode = .cmdLoop → s.fsm = .waitLen →
    s.env = [] → WholePacket pkt → s.rx = pkt ++ rest →
    runs pkt.length s = .next
      { s with
        rx := rest
        rxLen := pkt.headD 0
        rxBuf := []
        tx := s.tx ++ packetReply s.cfg s.mem pkt
        reads := s.reads ++ packetReads s.cfg pkt
        trace := s.trace ++ packetTrace s.cfg pkt }

/-- R64, R125, R148: a session of any number of whole packets is answered packet by packet, in order: `tx` gets the
replies one after the other, each what its own packet owes. That a reply is whole is the spec's granularity (R13,
decision D2; log 17, unsafe), that no byte is lost its lossless `rx` (R252, decision D17; log 18, unsafe). -/
def Obligations.SessionAnsweredInOrder : Prop :=
  ∀ (pkts : List (List Byte)) (s : State) (rest : List Byte), Inv s → s.cfg.wf = true → s.mode = .cmdLoop →
    s.fsm = .waitLen → s.env = [] → (∀ pkt ∈ pkts, WholePacket pkt) → s.rx = pkts.flatten ++ rest →
    ∃ t, runs pkts.flatten.length s = .next t ∧ t.mode = .cmdLoop ∧ Idle t ∧ t.rx = rest ∧
      t.tx = s.tx ++ (pkts.map (packetReply s.cfg s.mem)).flatten ∧
      t.reads = s.reads ++ (pkts.map (packetReads s.cfg)).flatten

/-- R46, R125, R43: the reply to a packet depends only on its bytes, the parameters and `MEM`: two idle blocks that
agree on these, whatever their pasts, push the same bytes for it. -/
def Obligations.ReplyIndependentOfHistory : Prop :=
  ∀ (s u : State) (pkt rest rest' : List Byte),
    Inv s → Inv u → s.cfg.wf = true → s.cfg = u.cfg → s.mem = u.mem →
    s.mode = .cmdLoop → u.mode = .cmdLoop → s.fsm = .waitLen → u.fsm = .waitLen → s.env = [] → u.env = [] →
    WholePacket pkt → s.rx = pkt ++ rest → u.rx = pkt ++ rest' →
    ∃ t v out, runs pkt.length s = .next t ∧ runs pkt.length u = .next v ∧ t.tx = s.tx ++ out ∧ v.tx = u.tx ++ out

/-- R62, R105, R216, R108: in the command loop, over any schedule of host bytes, level changes and block turns (no `rst`, no
`rx_timeout`), what the block does is what it does with the bytes it has consumed, fed one by one: when the bytes
arrive makes no difference, and no byte is lost or reordered. That none is lost is the spec's lossless `rx` (R34, R252,
decision D17; log 18, unsafe); the schedule is the model's (log 7, DESIGN CHOICE). -/
def Obligations.ScheduleMakesNoDifference : Prop :=
  ∀ (s t : State), s.mode = .cmdLoop → (∀ e ∈ s.env, quietEvent e = true) → runs s.env.length s = .next t →
    ∃ eaten u, s.rx ++ sends s.env = eaten ++ t.rx ∧ feed eaten s = .next u ∧ inside t = inside u
end

