-- ==== Sys2Proof/Laws/Cells.lean ====
section
/-! SUPPORT. Sparse cells: read after write, the canonical form kept by every operation, and the same for `MEM`. -/

namespace Sys2Proof.Machine

@[simp] theorem Cells.get?_nil (i : Nat) : Cells.get? [] i = none := rfl

/-- Read after write at the same index. -/
@[simp] theorem Cells.get?_set_self (m : List Host.Cell) (i : Nat) (v : Byte) :
    Cells.get? (Cells.set m i v) i = some v := by
  induction m with
  | nil => simp [Cells.set, Cells.get?]
  | cons c t ih =>
    obtain ⟨a, w⟩ := c
    by_cases h1 : i < a
    · simp [Cells.set, Cells.get?, h1]
    · by_cases h2 : i = a
      · simp [Cells.set, Cells.get?, h2]
      · simp [Cells.set, Cells.get?, h1, h2, ih]

/-- A write leaves every other index alone. -/
theorem Cells.get?_set_ne (m : List Host.Cell) (i j : Nat) (v : Byte) (h : j ≠ i) :
    Cells.get? (Cells.set m i v) j = Cells.get? m j := by
  induction m with
  | nil => simp [Cells.set, Cells.get?, h]
  | cons c t ih =>
    obtain ⟨a, w⟩ := c
    by_cases h1 : i < a
    · simp [Cells.set, Cells.get?, h1, h]
    · by_cases h2 : i = a
      · subst h2; simp [Cells.set, Cells.get?, h]
      · simp [Cells.set, Cells.get?, h1, h2, ih]

/-- Read after write, both cases at once. -/
theorem Cells.get?_set (m : List Host.Cell) (i j : Nat) (v : Byte) :
    Cells.get? (Cells.set m i v) j = if j = i then some v else Cells.get? m j := by
  by_cases h : j = i
  · subst h; simp
  · simp [h, Cells.get?_set_ne m i j v h]

theorem Cells.get?_none_of_risingAbove {n i : Nat} {m : List Host.Cell} (h : Cells.risingAbove n m = true)
    (hi : i ≤ n) : Cells.get? m i = none := by
  induction m generalizing n with
  | nil => rfl
  | cons c t ih =>
    obtain ⟨a, w⟩ := c
    simp only [Cells.risingAbove, Bool.and_eq_true, decide_eq_true_eq] at h
    have hne : i ≠ a := by omega
    simp only [Cells.get?, hne, if_false]
    exact ih h.2 (by omega)

theorem Cells.set_risingAbove {n i : Nat} {v : Byte} {m : List Host.Cell} (h : Cells.risingAbove n m = true)
    (hi : n < i) : Cells.risingAbove n (Cells.set m i v) = true := by
  induction m generalizing n with
  | nil => simp [Cells.set, Cells.risingAbove, hi]
  | cons c t ih =>
    obtain ⟨a, w⟩ := c
    simp only [Cells.risingAbove, Bool.and_eq_true, decide_eq_true_eq] at h
    by_cases h1 : i < a
    · simp [Cells.set, Cells.risingAbove, h1, hi, h.2]
    · by_cases h2 : i = a
      · subst h2; simp [Cells.set, Cells.risingAbove, h.1, h.2]
      · simp only [Cells.set, h1, h2, if_false, Cells.risingAbove, Bool.and_eq_true, decide_eq_true_eq]
        exact ⟨h.1, ih h.2 (by omega)⟩

/-- A write keeps the indices strictly rising. -/
theorem Cells.set_rising {i : Nat} {v : Byte} {m : List Host.Cell} (h : Cells.rising m = true) :
    Cells.rising (Cells.set m i v) = true := by
  cases m with
  | nil => rfl
  | cons c t =>
    obtain ⟨a, w⟩ := c
    simp only [Cells.rising] at h
    by_cases h1 : i < a
    · simp [Cells.set, Cells.rising, Cells.risingAbove, h1, h]
    · by_cases h2 : i = a
      · subst h2; simp [Cells.set, Cells.rising, h]
      · simp only [Cells.set, h1, h2, if_false, Cells.rising]
        exact Cells.set_risingAbove h (by omega)

theorem Cells.risingAbove_mono {n k : Nat} {m : List Host.Cell} (h : Cells.risingAbove k m = true)
    (hn : n ≤ k) : Cells.risingAbove n m = true := by
  cases m with
  | nil => rfl
  | cons c t =>
    simp only [Cells.risingAbove, Bool.and_eq_true, decide_eq_true_eq] at h ⊢
    exact ⟨by omega, h.2⟩

theorem Cells.erase_risingAbove {n i : Nat} {m : List Host.Cell} (h : Cells.risingAbove n m = true) :
    Cells.risingAbove n (Cells.erase m i) = true := by
  induction m generalizing n with
  | nil => rfl
  | cons c t ih =>
    obtain ⟨a, w⟩ := c
    simp only [Cells.risingAbove, Bool.and_eq_true, decide_eq_true_eq] at h
    by_cases h2 : i = a
    · simp only [Cells.erase, h2, if_true]
      exact Cells.risingAbove_mono h.2 (by omega)
    · simp only [Cells.erase, h2, if_false, Cells.risingAbove, Bool.and_eq_true, decide_eq_true_eq]
      exact ⟨h.1, ih h.2⟩

/-- Taking a value out keeps the indices strictly rising. -/
theorem Cells.erase_rising {i : Nat} {m : List Host.Cell} (h : Cells.rising m = true) :
    Cells.rising (Cells.erase m i) = true := by
  cases m with
  | nil => rfl
  | cons c t =>
    obtain ⟨a, w⟩ := c
    simp only [Cells.rising] at h
    by_cases h2 : i = a
    · simp only [Cells.erase, h2, if_true]
      cases t with
      | nil => rfl
      | cons d t' =>
        simp only [Cells.risingAbove, Bool.and_eq_true] at h
        exact h.2
    · simp only [Cells.erase, h2, if_false, Cells.rising]
      exact Cells.erase_risingAbove h

theorem Cells.get?_erase_ne (m : List Host.Cell) (i j : Nat) (h : j ≠ i) :
    Cells.get? (Cells.erase m i) j = Cells.get? m j := by
  induction m with
  | nil => rfl
  | cons c t ih =>
    obtain ⟨a, w⟩ := c
    by_cases h2 : i = a
    · subst h2; simp [Cells.erase, Cells.get?, h]
    · simp [Cells.erase, Cells.get?, h2, ih]

theorem Cells.get?_erase_self {m : List Host.Cell} (h : Cells.rising m = true) (i : Nat) :
    Cells.get? (Cells.erase m i) i = none := by
  induction m with
  | nil => rfl
  | cons c t ih =>
    obtain ⟨a, w⟩ := c
    simp only [Cells.rising] at h
    by_cases h2 : i = a
    · subst h2
      simp only [Cells.erase, if_true]
      exact Cells.get?_none_of_risingAbove h (Nat.le_refl _)
    · have ht : Cells.rising t = true := by
        cases t with
        | nil => rfl
        | cons d t' =>
          simp only [Cells.risingAbove, Bool.and_eq_true] at h
          exact h.2
      simp only [Cells.erase, h2, if_false, Cells.get?]
      exact ih ht

theorem Cells.mem_set {m : List Host.Cell} {i : Nat} {v : Byte} {c : Host.Cell} (h : c ∈ Cells.set m i v) :
    c = (i, v) ∨ c ∈ m := by
  induction m with
  | nil => simpa [Cells.set] using h
  | cons d t ih =>
    obtain ⟨a, w⟩ := d
    by_cases h1 : i < a
    · simpa [Cells.set, h1] using h
    · by_cases h2 : i = a
      · simp only [Cells.set, h2, Nat.lt_irrefl, if_false, if_true, List.mem_cons] at h
        rcases h with h | h
        · exact .inl (by rw [h, h2])
        · exact .inr (List.mem_cons_of_mem _ h)
      · simp only [Cells.set, h1, h2, if_false, List.mem_cons] at h
        rcases h with h | h
        · exact .inr (by rw [h]; exact List.mem_cons_self ..)
        · exact (ih h).imp id (List.mem_cons_of_mem _)

theorem Cells.mem_erase {m : List Host.Cell} {i : Nat} {c : Host.Cell} (h : c ∈ Cells.erase m i) : c ∈ m := by
  induction m with
  | nil => exact h
  | cons d t ih =>
    obtain ⟨a, w⟩ := d
    by_cases h2 : i = a
    · simp only [Cells.erase, h2, if_true] at h
      exact List.mem_cons_of_mem _ h
    · simp only [Cells.erase, h2, if_false, List.mem_cons] at h
      rcases h with h | h
      · rw [h]; exact List.mem_cons_self ..
      · exact List.mem_cons_of_mem _ (ih h)

/-- A cell read is a cell listed. -/
theorem Cells.mem_of_get? {m : List Host.Cell} {i : Nat} {v : Byte} (h : Cells.get? m i = some v) :
    (i, v) ∈ m := by
  induction m with
  | nil => simp at h
  | cons d t ih =>
    obtain ⟨a, w⟩ := d
    by_cases h2 : i = a
    · simp only [Cells.get?, h2, if_true, Option.some.injEq] at h
      rw [h2, h]; exact List.mem_cons_self ..
    · simp only [Cells.get?, h2, if_false] at h
      exact List.mem_cons_of_mem _ (ih h)

/-- Read after write in `MEM`. -/
theorem Memory.read_write (m : List Host.Cell) (hm : Cells.rising m = true) (a b : Nat) (v : Byte) :
    Memory.read (Memory.write m a v) b = if b = a then v else Memory.read m b := by
  by_cases hv : v = Config.memByte a
  · by_cases hb : b = a
    · subst hb
      simp [Memory.read, Memory.write, ← hv, Cells.get?_erase_self hm]
    · simp [Memory.read, Memory.write, ← hv, hb, Cells.get?_erase_ne _ _ _ hb]
  · by_cases hb : b = a
    · subst hb; simp [Memory.read, Memory.write, hv]
    · simp [Memory.read, Memory.write, hv, hb, Cells.get?_set_ne _ _ _ _ hb]

/-- The empty list is canonical. -/
theorem Memory.wf_nil : Memory.wf [] = true := rfl

/-- The one memory operation that changes the list keeps its canonical form. -/
theorem Memory.write_wf {m : List Host.Cell} (h : Memory.wf m = true) {a : Nat} (ha : a < 4294967296) (v : Byte) :
    Memory.wf (Memory.write m a v) = true := by
  simp only [Memory.wf, Bool.and_eq_true, List.all_eq_true, decide_eq_true_eq] at h ⊢
  by_cases hv : v = Config.memByte a
  · simp only [Memory.write, if_pos hv]
    exact ⟨Cells.erase_rising h.1, fun c hc => h.2 c (Cells.mem_erase hc)⟩
  · simp only [Memory.write, if_neg hv]
    refine ⟨Cells.set_rising h.1, fun c hc => ?_⟩
    rcases Cells.mem_set hc with rfl | hc
    · exact ⟨ha, hv⟩
    · exact h.2 c hc

end Sys2Proof.Machine
end

