-- ==== Sys2Proof/Laws/Decode.lean ====
section
/-! SUPPORT. The decoder, said once: its equation on a non-empty sequence, its result on a packet cut into fields, and
what an accepted sequence looks like. -/

namespace Sys2Proof

open Sys2Proof.Machine

/-- The decoder on a sequence that begins with the length byte `l`. -/
theorem decode_cons (c : Config) (l : Byte) (tl : List Byte) :
    decode c (l :: tl) =
      if l.toNat + 1 > Config.rxCap then .error .oversize
      else if tl.length < l.toNat then .error .truncated
      else if l.toNat < Config.minLen then .error .short
      else
        match decodeBody c l (tl.take l.toNat) with
        | .ok i => .ok (i, tl.drop l.toNat)
        | .error e => .error e := rfl

/-- A packet's bytes after the length byte, cut into code, payload and checksum. -/
theorem decodeBody_fields (c : Config) (l code b0 b1 b2 b3 : Byte) (p : List Byte) :
    decodeBody c l (code :: (p ++ [b0, b1, b2, b3])) =
      if word32 c.byteOrder b0 b1 b2 b3 = crc32w c (l :: code :: p) then .ok (decodeCommand c code p)
      else .error .badChecksum := by
  unfold decodeBody
  have e : (code :: (p ++ [b0, b1, b2, b3])) = (code :: p) ++ [b0, b1, b2, b3] := rfl
  have n : (code :: (p ++ [b0, b1, b2, b3])).length - 4 = (code :: p).length := by simp
  rw [n, e, List.take_left, List.drop_left]

/-- Five bytes or more after the length byte are a code, a payload and four checksum bytes (R70). -/
theorem fields_of_length {body : List Byte} (h : 5 ≤ body.length) :
    ∃ code p b0 b1 b2 b3, body = code :: (p ++ [b0, b1, b2, b3]) ∧ body.length = p.length + 5 := by
  cases body with
  | nil => simp at h
  | cons code t =>
    simp only [List.length_cons] at h
    have h4 : (t.drop (t.length - 4)).length = 4 := by simp; omega
    match hd : t.drop (t.length - 4), h4 with
    | [b0, b1, b2, b3], _ =>
      exact ⟨code, t.take (t.length - 4), b0, b1, b2, b3, by rw [← hd, List.take_append_drop], by simp; omega⟩

/-- All that an accepted sequence can be. -/
theorem decode_cases {c : Config} {bs rest : List Byte} {i : Instr} (h : decode c bs = .ok (i, rest)) :
    ∃ l code p b0 b1 b2 b3, bs = l :: code :: (p ++ [b0, b1, b2, b3]) ++ rest ∧
      l.toNat = p.length + 5 ∧ l.toNat + 1 ≤ Config.rxCap ∧
      word32 c.byteOrder b0 b1 b2 b3 = crc32w c (l :: code :: p) ∧ i = decodeCommand c code p := by
  cases bs with
  | nil => simp [decode] at h
  | cons l tl =>
    rw [decode_cons] at h
    by_cases h1 : l.toNat + 1 > Config.rxCap
    · rw [if_pos h1] at h; cases h
    rw [if_neg h1] at h
    by_cases h2 : tl.length < l.toNat
    · rw [if_pos h2] at h; cases h
    rw [if_neg h2] at h
    by_cases h3 : l.toNat < Config.minLen
    · rw [if_pos h3] at h; cases h
    rw [if_neg h3] at h
    simp only [Config.minLen] at h3
    have hlen : (tl.take l.toNat).length = l.toNat := by simp; omega
    obtain ⟨code, p, b0, b1, b2, b3, hb, hn⟩ := fields_of_length (body := tl.take l.toNat) (by omega)
    rw [hb, decodeBody_fields] at h
    by_cases hw : word32 c.byteOrder b0 b1 b2 b3 = crc32w c (l :: code :: p)
    · rw [if_pos hw] at h
      simp only [Except.ok.injEq, Prod.mk.injEq] at h
      refine ⟨l, code, p, b0, b1, b2, b3, ?_, by omega, by omega, hw, h.1.symm⟩
      rw [← h.2, List.cons_append, ← hb, List.take_append_drop]
    · rw [if_neg hw] at h; cases h

/-- A whole packet that fits the buffer is decoded by its body. -/
theorem decode_whole {c : Config} {l : Byte} {body : List Byte} (hb : body.length = l.toNat)
    (hcap : l.toNat + 1 ≤ Config.rxCap) (hmin : Config.minLen ≤ l.toNat) :
    decode c (l :: body) =
      match decodeBody c l body with
      | .ok i => .ok (i, [])
      | .error e => .error e := by
  rw [decode_cons, if_neg (by omega), if_neg (by omega), if_neg (by omega), List.take_of_length_le (by omega),
    List.drop_eq_nil_of_le (by omega)]

end Sys2Proof
end

