-- ==== Sys2Proof/Laws/Operands.lean ====
section
/-! SUPPORT. Reading the fields of a packet: what the reads answer when the cells hold the packet's bytes. -/

namespace Sys2Proof.Machine

theorem readCell_some {buf : List Host.Cell} {i : Nat} {v : Byte} (h : Cells.get? buf i = some v) :
    readCell buf i = .ok v := by
  simp [readCell, h]

/-- A range read answers the bytes of the range when every cell holds its byte. -/
theorem readCells_of_cells {buf : List Host.Cell} (bs : List Byte) (i : Nat)
    (h : ∀ j, j < bs.length → Cells.get? buf (i + j) = bs[j]?) : readCells buf i bs.length = .ok bs := by
  induction bs generalizing i with
  | nil => rfl
  | cons b bs ih =>
    have h0 : readCell buf i = .ok b := readCell_some (by simpa using h 0 (by simp))
    have ht : readCells buf (i + 1) bs.length = .ok bs := by
      refine ih (i + 1) fun j hj => ?_
      have := h (j + 1) (by simpa using hj)
      simpa [Nat.add_assoc, Nat.add_comm 1 j] using this
    simp [readCells, h0, ht]

/-- The fields of a packet `code :: payload` between its length byte and its four checksum bytes. -/
theorem readFields_of_cells {buf : List Host.Cell} {o : ByteOrder} {l code b0 b1 b2 b3 : Byte} {p : List Byte}
    (hl : l.toNat = p.length + 5)
    (h : ∀ j, j < p.length + 6 → Cells.get? buf j = (l :: code :: (p ++ [b0, b1, b2, b3]))[j]?) :
    readFields o buf l.toNat = .ok ⟨l :: code :: p, word32 o b0 b1 b2 b3, code, p⟩ := by
  have cov : readCells buf 0 (p.length + 2) = .ok (l :: code :: p) := by
    have := readCells_of_cells (buf := buf) (l :: code :: p) 0 (fun j hj => by
      rw [Nat.zero_add, h j (by simp at hj; omega)]
      have e : l :: code :: (p ++ [b0, b1, b2, b3]) = (l :: code :: p) ++ [b0, b1, b2, b3] := by simp
      rw [e, List.getElem?_append_left hj])
    simpa using this
  have pay : readCells buf 2 p.length = .ok p := by
    refine readCells_of_cells p 2 fun j hj => ?_
    rw [h (2 + j) (by omega), Nat.add_comm 2 j]
    simp [List.getElem?_append_left hj]
  have hc : readCell buf 1 = .ok code := readCell_some (by rw [h 1 (by omega)]; rfl)
  have hx : ∀ k b, [b0, b1, b2, b3][k]? = some b → readCell buf (p.length + 2 + k) = .ok b := by
    intro k b hb
    have hk : k < 4 := by
      rcases Nat.lt_or_ge k 4 with hk | hk
      · exact hk
      · rw [List.getElem?_eq_none (by simpa using hk)] at hb; cases hb
    refine readCell_some ?_
    rw [h _ (by omega)]
    have e : l :: code :: (p ++ [b0, b1, b2, b3]) = (l :: code :: p) ++ [b0, b1, b2, b3] := by simp
    rw [e, List.getElem?_append_right (by simp)]
    simpa [show p.length + 2 + k - (p.length + 1 + 1) = k by omega] using hb
  have c0 := hx 0 b0 rfl
  have c1 := hx 1 b1 rfl
  have c2 := hx 2 b2 rfl
  have c3 := hx 3 b3 rfl
  simp only [Nat.add_zero] at c0
  have e0 : p.length + 5 - 3 = p.length + 2 := by omega
  have e1 : p.length + 5 - 2 = p.length + 2 + 1 := by omega
  have e2 : p.length + 5 - 1 = p.length + 2 + 2 := by omega
  have e3 : p.length + 5 = p.length + 2 + 3 := by omega
  have e4 : p.length + 5 - 5 = p.length := by omega
  have hcrc : hostCrc o buf (p.length + 5) = .ok (word32 o b0 b1 b2 b3) := by
    unfold hostCrc
    rw [e0, e1, e2]
    rw [c0, c1, c2, show p.length + 5 = p.length + 2 + 3 by omega, c3]
  unfold readFields
  rw [hl, e0, e4, cov, hcrc, hc, pay]

end Sys2Proof.Machine
end

