-- ==== Sys2Proof/Laws/State.lean ====
section
/-! SUPPORT. One lemma per field per shared update of State, each true by rfl, so that no proof unfolds a record
update. -/

namespace Sys2Proof.Machine

/-! addTrace -/

@[simp] theorem State.addTrace_cfg (s : State) (e : Event) : (s.addTrace e).cfg = s.cfg := rfl
@[simp] theorem State.addTrace_mode (s : State) (e : Event) : (s.addTrace e).mode = s.mode := rfl
@[simp] theorem State.addTrace_fsm (s : State) (e : Event) : (s.addTrace e).fsm = s.fsm := rfl
@[simp] theorem State.addTrace_rxBuf (s : State) (e : Event) : (s.addTrace e).rxBuf = s.rxBuf := rfl
@[simp] theorem State.addTrace_rxLen (s : State) (e : Event) : (s.addTrace e).rxLen = s.rxLen := rfl
@[simp] theorem State.addTrace_rxCnt (s : State) (e : Event) : (s.addTrace e).rxCnt = s.rxCnt := rfl
@[simp] theorem State.addTrace_drainRem (s : State) (e : Event) : (s.addTrace e).drainRem = s.drainRem := rfl
@[simp] theorem State.addTrace_crcAcc (s : State) (e : Event) : (s.addTrace e).crcAcc = s.crcAcc := rfl
@[simp] theorem State.addTrace_hoValid (s : State) (e : Event) : (s.addTrace e).hoValid = s.hoValid := rfl
@[simp] theorem State.addTrace_hoSp (s : State) (e : Event) : (s.addTrace e).hoSp = s.hoSp := rfl
@[simp] theorem State.addTrace_hoEntry (s : State) (e : Event) : (s.addTrace e).hoEntry = s.hoEntry := rfl
@[simp] theorem State.addTrace_rx (s : State) (e : Event) : (s.addTrace e).rx = s.rx := rfl
@[simp] theorem State.addTrace_tx (s : State) (e : Event) : (s.addTrace e).tx = s.tx := rfl
@[simp] theorem State.addTrace_trace (s : State) (e : Event) : (s.addTrace e).trace = s.trace ++ [e] := rfl
@[simp] theorem State.addTrace_reads (s : State) (e : Event) : (s.addTrace e).reads = s.reads := rfl
@[simp] theorem State.addTrace_initOk (s : State) (e : Event) : (s.addTrace e).initOk = s.initOk := rfl
@[simp] theorem State.addTrace_bootSel (s : State) (e : Event) : (s.addTrace e).bootSel = s.bootSel := rfl
@[simp] theorem State.addTrace_mem (s : State) (e : Event) : (s.addTrace e).mem = s.mem := rfl
@[simp] theorem State.addTrace_env (s : State) (e : Event) : (s.addTrace e).env = s.env := rfl

/-! txPush -/

@[simp] theorem State.txPush_cfg (s : State) (bs : List Byte) : (s.txPush bs).cfg = s.cfg := rfl
@[simp] theorem State.txPush_mode (s : State) (bs : List Byte) : (s.txPush bs).mode = s.mode := rfl
@[simp] theorem State.txPush_fsm (s : State) (bs : List Byte) : (s.txPush bs).fsm = s.fsm := rfl
@[simp] theorem State.txPush_rxBuf (s : State) (bs : List Byte) : (s.txPush bs).rxBuf = s.rxBuf := rfl
@[simp] theorem State.txPush_rxLen (s : State) (bs : List Byte) : (s.txPush bs).rxLen = s.rxLen := rfl
@[simp] theorem State.txPush_rxCnt (s : State) (bs : List Byte) : (s.txPush bs).rxCnt = s.rxCnt := rfl
@[simp] theorem State.txPush_drainRem (s : State) (bs : List Byte) : (s.txPush bs).drainRem = s.drainRem := rfl
@[simp] theorem State.txPush_crcAcc (s : State) (bs : List Byte) : (s.txPush bs).crcAcc = s.crcAcc := rfl
@[simp] theorem State.txPush_hoValid (s : State) (bs : List Byte) : (s.txPush bs).hoValid = s.hoValid := rfl
@[simp] theorem State.txPush_hoSp (s : State) (bs : List Byte) : (s.txPush bs).hoSp = s.hoSp := rfl
@[simp] theorem State.txPush_hoEntry (s : State) (bs : List Byte) : (s.txPush bs).hoEntry = s.hoEntry := rfl
@[simp] theorem State.txPush_rx (s : State) (bs : List Byte) : (s.txPush bs).rx = s.rx := rfl
@[simp] theorem State.txPush_tx (s : State) (bs : List Byte) : (s.txPush bs).tx = s.tx ++ bs := rfl
@[simp] theorem State.txPush_trace (s : State) (bs : List Byte) : (s.txPush bs).trace = s.trace := rfl
@[simp] theorem State.txPush_reads (s : State) (bs : List Byte) : (s.txPush bs).reads = s.reads := rfl
@[simp] theorem State.txPush_initOk (s : State) (bs : List Byte) : (s.txPush bs).initOk = s.initOk := rfl
@[simp] theorem State.txPush_bootSel (s : State) (bs : List Byte) : (s.txPush bs).bootSel = s.bootSel := rfl
@[simp] theorem State.txPush_mem (s : State) (bs : List Byte) : (s.txPush bs).mem = s.mem := rfl
@[simp] theorem State.txPush_env (s : State) (bs : List Byte) : (s.txPush bs).env = s.env := rfl

/-! rxAppend -/

@[simp] theorem State.rxAppend_cfg (s : State) (b : Byte) : (s.rxAppend b).cfg = s.cfg := rfl
@[simp] theorem State.rxAppend_mode (s : State) (b : Byte) : (s.rxAppend b).mode = s.mode := rfl
@[simp] theorem State.rxAppend_fsm (s : State) (b : Byte) : (s.rxAppend b).fsm = s.fsm := rfl
@[simp] theorem State.rxAppend_rxBuf (s : State) (b : Byte) : (s.rxAppend b).rxBuf = s.rxBuf := rfl
@[simp] theorem State.rxAppend_rxLen (s : State) (b : Byte) : (s.rxAppend b).rxLen = s.rxLen := rfl
@[simp] theorem State.rxAppend_rxCnt (s : State) (b : Byte) : (s.rxAppend b).rxCnt = s.rxCnt := rfl
@[simp] theorem State.rxAppend_drainRem (s : State) (b : Byte) : (s.rxAppend b).drainRem = s.drainRem := rfl
@[simp] theorem State.rxAppend_crcAcc (s : State) (b : Byte) : (s.rxAppend b).crcAcc = s.crcAcc := rfl
@[simp] theorem State.rxAppend_hoValid (s : State) (b : Byte) : (s.rxAppend b).hoValid = s.hoValid := rfl
@[simp] theorem State.rxAppend_hoSp (s : State) (b : Byte) : (s.rxAppend b).hoSp = s.hoSp := rfl
@[simp] theorem State.rxAppend_hoEntry (s : State) (b : Byte) : (s.rxAppend b).hoEntry = s.hoEntry := rfl
@[simp] theorem State.rxAppend_rx (s : State) (b : Byte) : (s.rxAppend b).rx = s.rx ++ [b] := rfl
@[simp] theorem State.rxAppend_tx (s : State) (b : Byte) : (s.rxAppend b).tx = s.tx := rfl
@[simp] theorem State.rxAppend_trace (s : State) (b : Byte) : (s.rxAppend b).trace = s.trace := rfl
@[simp] theorem State.rxAppend_reads (s : State) (b : Byte) : (s.rxAppend b).reads = s.reads := rfl
@[simp] theorem State.rxAppend_initOk (s : State) (b : Byte) : (s.rxAppend b).initOk = s.initOk := rfl
@[simp] theorem State.rxAppend_bootSel (s : State) (b : Byte) : (s.rxAppend b).bootSel = s.bootSel := rfl
@[simp] theorem State.rxAppend_mem (s : State) (b : Byte) : (s.rxAppend b).mem = s.mem := rfl
@[simp] theorem State.rxAppend_env (s : State) (b : Byte) : (s.rxAppend b).env = s.env := rfl

/-! memRead -/

@[simp] theorem State.memRead_cfg (s : State) (a : Word) : ((s.memRead a).2).cfg = s.cfg := rfl
@[simp] theorem State.memRead_mode (s : State) (a : Word) : ((s.memRead a).2).mode = s.mode := rfl
@[simp] theorem State.memRead_fsm (s : State) (a : Word) : ((s.memRead a).2).fsm = s.fsm := rfl
@[simp] theorem State.memRead_rxBuf (s : State) (a : Word) : ((s.memRead a).2).rxBuf = s.rxBuf := rfl
@[simp] theorem State.memRead_rxLen (s : State) (a : Word) : ((s.memRead a).2).rxLen = s.rxLen := rfl
@[simp] theorem State.memRead_rxCnt (s : State) (a : Word) : ((s.memRead a).2).rxCnt = s.rxCnt := rfl
@[simp] theorem State.memRead_drainRem (s : State) (a : Word) : ((s.memRead a).2).drainRem = s.drainRem := rfl
@[simp] theorem State.memRead_crcAcc (s : State) (a : Word) : ((s.memRead a).2).crcAcc = s.crcAcc := rfl
@[simp] theorem State.memRead_hoValid (s : State) (a : Word) : ((s.memRead a).2).hoValid = s.hoValid := rfl
@[simp] theorem State.memRead_hoSp (s : State) (a : Word) : ((s.memRead a).2).hoSp = s.hoSp := rfl
@[simp] theorem State.memRead_hoEntry (s : State) (a : Word) : ((s.memRead a).2).hoEntry = s.hoEntry := rfl
@[simp] theorem State.memRead_rx (s : State) (a : Word) : ((s.memRead a).2).rx = s.rx := rfl
@[simp] theorem State.memRead_tx (s : State) (a : Word) : ((s.memRead a).2).tx = s.tx := rfl
@[simp] theorem State.memRead_trace (s : State) (a : Word) : ((s.memRead a).2).trace = s.trace := rfl
@[simp] theorem State.memRead_reads (s : State) (a : Word) : ((s.memRead a).2).reads = s.reads ++ [a] := rfl
@[simp] theorem State.memRead_initOk (s : State) (a : Word) : ((s.memRead a).2).initOk = s.initOk := rfl
@[simp] theorem State.memRead_bootSel (s : State) (a : Word) : ((s.memRead a).2).bootSel = s.bootSel := rfl
@[simp] theorem State.memRead_mem (s : State) (a : Word) : ((s.memRead a).2).mem = s.mem := rfl
@[simp] theorem State.memRead_env (s : State) (a : Word) : ((s.memRead a).2).env = s.env := rfl

/-! rearm -/

@[simp] theorem rearm_cfg (s : State) : (rearm s).cfg = s.cfg := rfl
@[simp] theorem rearm_mode (s : State) : (rearm s).mode = s.mode := rfl
@[simp] theorem rearm_fsm (s : State) : (rearm s).fsm = .waitLen := rfl
@[simp] theorem rearm_rxBuf (s : State) : (rearm s).rxBuf = [] := rfl
@[simp] theorem rearm_rxLen (s : State) : (rearm s).rxLen = s.rxLen := rfl
@[simp] theorem rearm_rxCnt (s : State) : (rearm s).rxCnt = 0 := rfl
@[simp] theorem rearm_drainRem (s : State) : (rearm s).drainRem = 0 := rfl
@[simp] theorem rearm_crcAcc (s : State) : (rearm s).crcAcc = s.crcAcc := rfl
@[simp] theorem rearm_hoValid (s : State) : (rearm s).hoValid = s.hoValid := rfl
@[simp] theorem rearm_hoSp (s : State) : (rearm s).hoSp = s.hoSp := rfl
@[simp] theorem rearm_hoEntry (s : State) : (rearm s).hoEntry = s.hoEntry := rfl
@[simp] theorem rearm_rx (s : State) : (rearm s).rx = s.rx := rfl
@[simp] theorem rearm_tx (s : State) : (rearm s).tx = s.tx := rfl
@[simp] theorem rearm_trace (s : State) : (rearm s).trace = s.trace := rfl
@[simp] theorem rearm_reads (s : State) : (rearm s).reads = s.reads := rfl
@[simp] theorem rearm_initOk (s : State) : (rearm s).initOk = s.initOk := rfl
@[simp] theorem rearm_bootSel (s : State) : (rearm s).bootSel = s.bootSel := rfl
@[simp] theorem rearm_mem (s : State) : (rearm s).mem = s.mem := rfl
@[simp] theorem rearm_env (s : State) : (rearm s).env = s.env := rfl

/-! sendNack -/

@[simp] theorem sendNack_cfg (s : State) : (sendNack s).cfg = s.cfg := rfl
@[simp] theorem sendNack_mode (s : State) : (sendNack s).mode = s.mode := rfl
@[simp] theorem sendNack_fsm (s : State) : (sendNack s).fsm = s.fsm := rfl
@[simp] theorem sendNack_rxBuf (s : State) : (sendNack s).rxBuf = s.rxBuf := rfl
@[simp] theorem sendNack_rxLen (s : State) : (sendNack s).rxLen = s.rxLen := rfl
@[simp] theorem sendNack_rxCnt (s : State) : (sendNack s).rxCnt = s.rxCnt := rfl
@[simp] theorem sendNack_drainRem (s : State) : (sendNack s).drainRem = s.drainRem := rfl
@[simp] theorem sendNack_crcAcc (s : State) : (sendNack s).crcAcc = s.crcAcc := rfl
@[simp] theorem sendNack_hoValid (s : State) : (sendNack s).hoValid = s.hoValid := rfl
@[simp] theorem sendNack_hoSp (s : State) : (sendNack s).hoSp = s.hoSp := rfl
@[simp] theorem sendNack_hoEntry (s : State) : (sendNack s).hoEntry = s.hoEntry := rfl
@[simp] theorem sendNack_rx (s : State) : (sendNack s).rx = s.rx := rfl
@[simp] theorem sendNack_tx (s : State) : (sendNack s).tx = s.tx ++ [Config.nackMark] := rfl
@[simp] theorem sendNack_trace (s : State) : (sendNack s).trace = s.trace := rfl
@[simp] theorem sendNack_reads (s : State) : (sendNack s).reads = s.reads := rfl
@[simp] theorem sendNack_initOk (s : State) : (sendNack s).initOk = s.initOk := rfl
@[simp] theorem sendNack_bootSel (s : State) : (sendNack s).bootSel = s.bootSel := rfl
@[simp] theorem sendNack_mem (s : State) : (sendNack s).mem = s.mem := rfl
@[simp] theorem sendNack_env (s : State) : (sendNack s).env = s.env := rfl

/-! raiseHalt -/

@[simp] theorem raiseHalt_cfg (c : Cause) (s : State) : (raiseHalt c s).cfg = s.cfg := rfl
@[simp] theorem raiseHalt_mode (c : Cause) (s : State) : (raiseHalt c s).mode = .halt := rfl
@[simp] theorem raiseHalt_fsm (c : Cause) (s : State) : (raiseHalt c s).fsm = s.fsm := rfl
@[simp] theorem raiseHalt_rxBuf (c : Cause) (s : State) : (raiseHalt c s).rxBuf = s.rxBuf := rfl
@[simp] theorem raiseHalt_rxLen (c : Cause) (s : State) : (raiseHalt c s).rxLen = s.rxLen := rfl
@[simp] theorem raiseHalt_rxCnt (c : Cause) (s : State) : (raiseHalt c s).rxCnt = s.rxCnt := rfl
@[simp] theorem raiseHalt_drainRem (c : Cause) (s : State) : (raiseHalt c s).drainRem = s.drainRem := rfl
@[simp] theorem raiseHalt_crcAcc (c : Cause) (s : State) : (raiseHalt c s).crcAcc = s.crcAcc := rfl
@[simp] theorem raiseHalt_hoValid (c : Cause) (s : State) : (raiseHalt c s).hoValid = s.hoValid := rfl
@[simp] theorem raiseHalt_hoSp (c : Cause) (s : State) : (raiseHalt c s).hoSp = s.hoSp := rfl
@[simp] theorem raiseHalt_hoEntry (c : Cause) (s : State) : (raiseHalt c s).hoEntry = s.hoEntry := rfl
@[simp] theorem raiseHalt_rx (c : Cause) (s : State) : (raiseHalt c s).rx = s.rx := rfl
@[simp] theorem raiseHalt_tx (c : Cause) (s : State) : (raiseHalt c s).tx = s.tx := rfl
@[simp] theorem raiseHalt_trace (c : Cause) (s : State) : (raiseHalt c s).trace = s.trace ++ [.halt c] := rfl
@[simp] theorem raiseHalt_reads (c : Cause) (s : State) : (raiseHalt c s).reads = s.reads := rfl
@[simp] theorem raiseHalt_initOk (c : Cause) (s : State) : (raiseHalt c s).initOk = s.initOk := rfl
@[simp] theorem raiseHalt_bootSel (c : Cause) (s : State) : (raiseHalt c s).bootSel = s.bootSel := rfl
@[simp] theorem raiseHalt_mem (c : Cause) (s : State) : (raiseHalt c s).mem = s.mem := rfl
@[simp] theorem raiseHalt_env (c : Cause) (s : State) : (raiseHalt c s).env = s.env := rfl

/-! resetBlock -/

@[simp] theorem resetBlock_cfg (s : State) : (resetBlock s).cfg = s.cfg := rfl
@[simp] theorem resetBlock_mode (s : State) : (resetBlock s).mode = .reset := rfl
@[simp] theorem resetBlock_fsm (s : State) : (resetBlock s).fsm = .waitLen := rfl
@[simp] theorem resetBlock_rxBuf (s : State) : (resetBlock s).rxBuf = [] := rfl
@[simp] theorem resetBlock_rxLen (s : State) : (resetBlock s).rxLen = 0 := rfl
@[simp] theorem resetBlock_rxCnt (s : State) : (resetBlock s).rxCnt = 0 := rfl
@[simp] theorem resetBlock_drainRem (s : State) : (resetBlock s).drainRem = 0 := rfl
@[simp] theorem resetBlock_crcAcc (s : State) : (resetBlock s).crcAcc = s.cfg.crcInit := rfl
@[simp] theorem resetBlock_hoValid (s : State) : (resetBlock s).hoValid = false := rfl
@[simp] theorem resetBlock_hoSp (s : State) : (resetBlock s).hoSp = none := rfl
@[simp] theorem resetBlock_hoEntry (s : State) : (resetBlock s).hoEntry = none := rfl
@[simp] theorem resetBlock_rx (s : State) : (resetBlock s).rx = s.rx := rfl
@[simp] theorem resetBlock_tx (s : State) : (resetBlock s).tx = s.tx := rfl
@[simp] theorem resetBlock_trace (s : State) : (resetBlock s).trace = s.trace ++ [.reset] := rfl
@[simp] theorem resetBlock_reads (s : State) : (resetBlock s).reads = s.reads := rfl
@[simp] theorem resetBlock_initOk (s : State) : (resetBlock s).initOk = s.initOk := rfl
@[simp] theorem resetBlock_bootSel (s : State) : (resetBlock s).bootSel = s.bootSel := rfl
@[simp] theorem resetBlock_mem (s : State) : (resetBlock s).mem = s.mem := rfl
@[simp] theorem resetBlock_env (s : State) : (resetBlock s).env = s.env := rfl

/-! applyLaunch -/

@[simp] theorem applyLaunch_cfg (l : Launch) (s : State) : (applyLaunch l s).cfg = s.cfg := rfl
@[simp] theorem applyLaunch_mode (l : Launch) (s : State) : (applyLaunch l s).mode = s.mode := rfl
@[simp] theorem applyLaunch_fsm (l : Launch) (s : State) : (applyLaunch l s).fsm = s.fsm := rfl
@[simp] theorem applyLaunch_rxBuf (l : Launch) (s : State) : (applyLaunch l s).rxBuf = s.rxBuf := rfl
@[simp] theorem applyLaunch_rxLen (l : Launch) (s : State) : (applyLaunch l s).rxLen = s.rxLen := rfl
@[simp] theorem applyLaunch_rxCnt (l : Launch) (s : State) : (applyLaunch l s).rxCnt = s.rxCnt := rfl
@[simp] theorem applyLaunch_drainRem (l : Launch) (s : State) : (applyLaunch l s).drainRem = s.drainRem := rfl
@[simp] theorem applyLaunch_crcAcc (l : Launch) (s : State) : (applyLaunch l s).crcAcc = s.crcAcc := rfl
@[simp] theorem applyLaunch_hoValid (l : Launch) (s : State) : (applyLaunch l s).hoValid = s.hoValid := rfl
@[simp] theorem applyLaunch_hoSp (l : Launch) (s : State) : (applyLaunch l s).hoSp = s.hoSp := rfl
@[simp] theorem applyLaunch_hoEntry (l : Launch) (s : State) : (applyLaunch l s).hoEntry = s.hoEntry := rfl
@[simp] theorem applyLaunch_rx (l : Launch) (s : State) : (applyLaunch l s).rx = l.rx.getD s.rx := rfl
@[simp] theorem applyLaunch_tx (l : Launch) (s : State) : (applyLaunch l s).tx = s.tx := rfl
@[simp] theorem applyLaunch_trace (l : Launch) (s : State) : (applyLaunch l s).trace = s.trace := rfl
@[simp] theorem applyLaunch_reads (l : Launch) (s : State) : (applyLaunch l s).reads = s.reads := rfl
@[simp] theorem applyLaunch_initOk (l : Launch) (s : State) : (applyLaunch l s).initOk = l.initOk.getD s.initOk := rfl
@[simp] theorem applyLaunch_bootSel (l : Launch) (s : State) : (applyLaunch l s).bootSel = l.bootSel.getD s.bootSel := rfl
@[simp] theorem applyLaunch_mem (l : Launch) (s : State) : (applyLaunch l s).mem = l.mem.getD s.mem := rfl
@[simp] theorem applyLaunch_env (l : Launch) (s : State) : (applyLaunch l s).env = s.env := rfl

/-! handOff -/

@[simp] theorem handOff_cfg (sp entry : Word) (s : State) : (handOff sp entry s).cfg = s.cfg := rfl
@[simp] theorem handOff_mode (sp entry : Word) (s : State) : (handOff sp entry s).mode = .appJump := rfl
@[simp] theorem handOff_fsm (sp entry : Word) (s : State) : (handOff sp entry s).fsm = s.fsm := rfl
@[simp] theorem handOff_rxBuf (sp entry : Word) (s : State) : (handOff sp entry s).rxBuf = s.rxBuf := rfl
@[simp] theorem handOff_rxLen (sp entry : Word) (s : State) : (handOff sp entry s).rxLen = s.rxLen := rfl
@[simp] theorem handOff_rxCnt (sp entry : Word) (s : State) : (handOff sp entry s).rxCnt = s.rxCnt := rfl
@[simp] theorem handOff_drainRem (sp entry : Word) (s : State) : (handOff sp entry s).drainRem = s.drainRem := rfl
@[simp] theorem handOff_crcAcc (sp entry : Word) (s : State) : (handOff sp entry s).crcAcc = s.crcAcc := rfl
@[simp] theorem handOff_hoValid (sp entry : Word) (s : State) : (handOff sp entry s).hoValid = true := rfl
@[simp] theorem handOff_hoSp (sp entry : Word) (s : State) : (handOff sp entry s).hoSp = some sp := rfl
@[simp] theorem handOff_hoEntry (sp entry : Word) (s : State) : (handOff sp entry s).hoEntry = some entry := rfl
@[simp] theorem handOff_rx (sp entry : Word) (s : State) : (handOff sp entry s).rx = s.rx := rfl
@[simp] theorem handOff_tx (sp entry : Word) (s : State) : (handOff sp entry s).tx = s.tx := rfl
@[simp] theorem handOff_trace (sp entry : Word) (s : State) : (handOff sp entry s).trace = s.trace ++ [.handoff sp entry] := rfl
@[simp] theorem handOff_reads (sp entry : Word) (s : State) : (handOff sp entry s).reads = s.reads := rfl
@[simp] theorem handOff_initOk (sp entry : Word) (s : State) : (handOff sp entry s).initOk = s.initOk := rfl
@[simp] theorem handOff_bootSel (sp entry : Word) (s : State) : (handOff sp entry s).bootSel = s.bootSel := rfl
@[simp] theorem handOff_mem (sp entry : Word) (s : State) : (handOff sp entry s).mem = s.mem := rfl
@[simp] theorem handOff_env (sp entry : Word) (s : State) : (handOff sp entry s).env = s.env := rfl

@[simp] theorem State.memRead_value (s : State) (a : Word) : (s.memRead a).1 = Memory.word s.mem a := rfl

end Sys2Proof.Machine
end

