-- ==== Sys2Proof/Laws/Ops.lean ====
section
/-! SUPPORT. What each shared operation can do, said once: the Response Encoder, the error paths, the buffer's write,
the verification. -/

namespace Sys2Proof.Machine

@[simp] theorem andThen_next (s : State) (f : State → Out) : andThen (.next s) f = f s := rfl
@[simp] theorem andThen_fault (r : Fault) (f : State → Out) : andThen (.fault r) f = .fault r := rfl
@[simp] theorem andThen_refused (r : Refusal) (f : State → Out) : andThen (.refused r) f = .refused r := rfl

/-- A sequence answers a next state exactly when both parts do. -/
theorem andThen_eq_next {o : Out} {f : State → Out} {t : State} :
    andThen o f = .next t ↔ ∃ s, o = .next s ∧ f s = .next t := by
  cases o <;> simp

@[simp] theorem rxPop_nil {s : State} (h : s.rx = []) : s.rxPop = none := by
  simp [State.rxPop, h]

@[simp] theorem rxPop_cons {s : State} {b : Byte} {rest : List Byte} (h : s.rx = b :: rest) :
    s.rxPop = some (b, { s with rx := rest }) := by
  simp [State.rxPop, h]

/-- A write inside the buffer goes through. -/
theorem writeCell_inside {s : State} {i : Nat} {v : Byte} (h : i < Config.rxCap) :
    s.writeCell i v = .next { s with rxBuf := Cells.set s.rxBuf i v } := by
  simp [State.writeCell, h]

/-- A write that goes through was inside the buffer. -/
theorem writeCell_cases {s t : State} {i : Nat} {v : Byte} (h : s.writeCell i v = .next t) :
    i < Config.rxCap ∧ t = { s with rxBuf := Cells.set s.rxBuf i v } := by
  by_cases hi : i < Config.rxCap
  · rw [writeCell_inside hi] at h
    exact ⟨hi, by simpa using h.symm⟩
  · simp [State.writeCell, hi] at h

/-- An Acknowledge of at most 255 bytes is pushed whole. -/
theorem sendAck_fits {p : List Byte} (s : State) (h : p.length ≤ 255) :
    sendAck p s = .next { s with tx := s.tx ++ ackBytes p } := by
  simp [sendAck, h, State.txPush, ackBytes]

/-- The common end of a handler, when its payload fits. -/
theorem acknowledge_fits {p : List Byte} (code : Byte) (s : State) (h : p.length ≤ 255) :
    acknowledge code p s
      = .next { s with tx := s.tx ++ ackBytes p, trace := s.trace ++ [.ack code] } := by
  simp [acknowledge, sendAck_fits s h, State.addTrace]

/-- All that the common end of a handler can do. -/
theorem acknowledge_cases {p : List Byte} {code : Byte} {s t : State} (h : acknowledge code p s = .next t) :
    p.length ≤ 255 ∧ t = { s with tx := s.tx ++ ackBytes p, trace := s.trace ++ [.ack code] } := by
  by_cases hp : p.length ≤ 255
  · rw [acknowledge_fits code s hp] at h
    exact ⟨hp, by simpa using h.symm⟩
  · simp [acknowledge, sendAck, hp] at h

/-- The error path of a packet under its policy. -/
theorem raisePacket_eq (c : Cause) (s : State) :
    raisePacket c s
      = { s with tx := s.tx ++ policyReply (c.response s.cfg),
                 trace := s.trace ++ [policyLabel c (c.response s.cfg)] } := by
  unfold raisePacket
  cases c.response s.cfg <;> simp [sendNack, State.txPush, State.addTrace, policyReply, policyLabel]

/-- The verification leaves everything but the accumulator as it was. -/
@[simp] theorem verify_state (covered : List Byte) (crc : Word) (s : State) :
    (verify covered crc s).2 = { s with crcAcc := s.cfg.crcInit } := rfl

/-- From a fresh accumulator the verification compares the host's word with `crc32w` of the covered bytes. -/
theorem verify_fresh {s : State} (h : s.crcAcc = s.cfg.crcInit) (covered : List Byte) (crc : Word) :
    (verify covered crc s).1 = decide (crc32w s.cfg covered = crc) := by
  unfold verify crc32w
  rw [h]

end Sys2Proof.Machine
end

