-- ==== Sys2Proof/Laws/Step.lean ====
section
/-! SUPPORT. What a step can do, said once for each part of it: the inversion lemmas that proofs about step start from. -/

namespace Sys2Proof.Machine

/-- All that a step can do: the block's step on its turn, or one outside event. -/
theorem step_cases {s t : State} (h : step s = .next t) :
    (∃ s', BlockTurn s s' ∧ blockStep s' = .next t) ∨
    (∃ b rest, s.env = .hostSend b :: rest ∧ t = { s with env := rest }.rxAppend b) ∨
    (∃ l rest, s.env = .rst l :: rest ∧ t = stepReset l { s with env := rest }) ∨
    (∃ rest, s.env = .rxTimeout :: rest ∧ t = stepRxTimeout { s with env := rest }) ∨
    (∃ v rest, s.env = .setBootSel v :: rest ∧ t = { s with env := rest, bootSel := v }) ∨
    (∃ v rest, s.env = .setInitOk v :: rest ∧ t = { s with env := rest, initOk := v }) := by
  unfold step takeTurn at h
  cases he : s.env with
  | nil =>
    rw [he] at h
    exact .inl ⟨s, .inl ⟨he, rfl⟩, h⟩
  | cons e rest =>
    rw [he] at h
    cases e with
    | block => exact .inl ⟨_, .inr ⟨rest, he, rfl⟩, h⟩
    | hostSend b => exact .inr (.inl ⟨b, rest, rfl, by simpa [takeEvent] using h.symm⟩)
    | rst l => exact .inr (.inr (.inl ⟨l, rest, rfl, by simpa [takeEvent] using h.symm⟩))
    | rxTimeout => exact .inr (.inr (.inr (.inl ⟨rest, rfl, by simpa [takeEvent] using h.symm⟩)))
    | setBootSel v => exact .inr (.inr (.inr (.inr (.inl ⟨v, rest, rfl, by simpa [takeEvent] using h.symm⟩))))
    | setInitOk v => exact .inr (.inr (.inr (.inr (.inr ⟨v, rest, rfl, by simpa [takeEvent] using h.symm⟩))))

/-- On the block's turn a step is the block's step. -/
theorem step_of_blockTurn {s s' : State} (h : BlockTurn s s') : step s = blockStep s' := by
  rcases h with ⟨he, rfl⟩ | ⟨rest, he, rfl⟩
  · simp [step, takeTurn, he]
  · simp [step, takeTurn, he, takeEvent]

/-- All that the block's step can do. -/
theorem blockStep_cases {s t : State} (h : blockStep s = .next t) :
    (s.mode = .reset ∧ t = stepBoot s) ∨
    (s.mode = .cmdLoop ∧ s.rx = [] ∧ t = s) ∨
    (s.mode = .cmdLoop ∧ ∃ b rest, s.rx = b :: rest ∧ readByte b { s with rx := rest } = .next t) ∨
    ((s.mode = .appJump ∨ s.mode = .halt) ∧ t = s) := by
  unfold blockStep at h
  obtain ⟨m, hm⟩ : ∃ m, s.mode = m := ⟨_, rfl⟩
  rw [hm] at h
  cases m with
  | reset => exact .inl ⟨hm, by simpa using h.symm⟩
  | cmdLoop =>
    obtain ⟨r, hr⟩ : ∃ r, s.rx = r := ⟨_, rfl⟩
    cases r with
    | nil =>
      rw [rxPop_nil hr] at h
      exact .inr (.inl ⟨hm, hr, by simpa using h.symm⟩)
    | cons b rest =>
      rw [rxPop_cons hr] at h
      exact .inr (.inr (.inl ⟨hm, b, rest, hr, h⟩))
  | appJump => exact .inr (.inr (.inr ⟨.inl hm, by simpa using h.symm⟩))
  | halt => exact .inr (.inr (.inr ⟨.inr hm, by simpa using h.symm⟩))

/-- All that a byte can do (R101 to R104). -/
theorem readByte_cases {b : Byte} {s t : State} (h : readByte b s = .next t) :
    (s.fsm = .waitLen ∧ b.toNat + 1 ≤ Config.rxCap ∧ b ≠ 0 ∧
      t = { s with rxLen := b, rxBuf := Cells.set s.rxBuf 0 b, rxCnt := 1, fsm := .recv,
                   trace := s.trace ++ [.len b] }) ∨
    (s.fsm = .waitLen ∧ b = 0 ∧
      completePacket { s with rxLen := 0, rxBuf := Cells.set s.rxBuf 0 0, rxCnt := 1,
                              trace := s.trace ++ [.len 0] } = .next t) ∨
    (s.fsm = .waitLen ∧ Config.rxCap < b.toNat + 1 ∧
      t = { s with rxLen := b, drainRem := b.toNat, fsm := .drain, trace := s.trace ++ [.len b] }) ∨
    (s.fsm = .recv ∧ s.rxCnt < Config.rxCap ∧ s.rxCnt ≠ s.rxLen.toNat ∧
      t = received s b s.rx) ∨
    (s.fsm = .recv ∧ s.rxCnt < Config.rxCap ∧ s.rxCnt = s.rxLen.toNat ∧
      completePacket (received s b s.rx) = .next t) ∨
    (s.fsm = .drain ∧ 1 < s.drainRem ∧
      t = { s with drainRem := s.drainRem - 1, trace := s.trace ++ [.byte] }) ∨
    (s.fsm = .drain ∧ s.drainRem = 1 ∧
      t = rearm (raise .oversize { s with drainRem := 0, trace := s.trace ++ [.byte] })) := by
  unfold readByte at h
  obtain ⟨f, hf⟩ : ∃ f, s.fsm = f := ⟨_, rfl⟩
  rw [hf] at h
  cases f with
  | waitLen =>
    by_cases hb : b.toNat + 1 ≤ Config.rxCap
    · simp only [if_pos hb] at h
      obtain ⟨s₁, hw, h⟩ := andThen_eq_next.mp h
      obtain ⟨-, rfl⟩ := writeCell_cases hw
      by_cases h0 : b = 0
      · subst h0
        exact .inr (.inl ⟨hf, rfl, by simpa [State.addTrace] using h⟩)
      · refine .inl ⟨hf, hb, h0, ?_⟩
        simp only [if_neg h0] at h
        simpa [State.addTrace] using h.symm
    · simp only [if_neg hb] at h
      exact .inr (.inr (.inl ⟨hf, by omega, by simpa [stepRxLenOversize, State.addTrace] using h.symm⟩))
  | recv =>
    obtain ⟨s₁, hw, h⟩ := andThen_eq_next.mp h
    obtain ⟨hi, rfl⟩ := writeCell_cases hw
    by_cases hc : s.rxCnt = s.rxLen.toNat
    · exact .inr (.inr (.inr (.inr (.inl ⟨hf, hi, hc, by
        simpa [hc, State.addTrace, received] using h⟩))))
    · exact .inr (.inr (.inr (.inl ⟨hf, hi, hc, by
        simpa [hc, State.addTrace, received] using h.symm⟩)))
  | drain =>
    simp only [stepRxDrain] at h
    by_cases h0 : s.drainRem = 0
    · simp [h0] at h
    · simp only [if_neg h0] at h
      by_cases h1 : s.drainRem = 1
      · refine .inr (.inr (.inr (.inr (.inr (.inr ⟨hf, h1, ?_⟩)))))
        simpa [h1, State.addTrace] using h.symm
      · refine .inr (.inr (.inr (.inr (.inr (.inl ⟨hf, by omega, ?_⟩)))))
        simpa [show s.drainRem - 1 ≠ 0 by omega, State.addTrace] using h.symm

/-- All that the completion procedure can do (R140). -/
theorem completePacket_cases {s t : State} (h : completePacket s = .next t) :
    (s.rxLen.toNat < Config.minLen ∧ t = rearm (raise .short s)) ∨
    (Config.minLen ≤ s.rxLen.toNat ∧ ∃ f, readFields s.cfg.byteOrder s.rxBuf s.rxLen.toNat = .ok f ∧
      ((verify f.covered f.hostCrc s).1 = false ∧
          t = rearm (raise .crc { s with crcAcc := s.cfg.crcInit }) ∨
       (verify f.covered f.hostCrc s).1 = true ∧
          ∃ u, exec (decodeCommand s.cfg f.code f.payload) { s with crcAcc := s.cfg.crcInit } = .next u ∧
            t = rearm u)) := by
  unfold completePacket at h
  by_cases hl : s.rxLen.toNat < Config.minLen
  · simp only [hl, if_true] at h
    exact .inl ⟨hl, by simpa using h.symm⟩
  · simp only [hl, if_false] at h
    refine .inr ⟨by omega, ?_⟩
    cases hf : readFields s.cfg.byteOrder s.rxBuf s.rxLen.toNat with
    | error r => simp [hf] at h
    | ok f =>
      simp only [hf] at h
      obtain ⟨u, hu, h⟩ := andThen_eq_next.mp h
      refine ⟨f, rfl, ?_⟩
      unfold runPacket at hu
      cases hv : (verify f.covered f.hostCrc s).1 with
      | false =>
        simp only [hv, verify_state] at hu
        refine .inl ⟨rfl, ?_⟩
        simp only [Bool.false_eq_true, if_false, Host.Outcome.next.injEq] at hu h
        rw [← h, ← hu]
      | true =>
        simp only [hv, verify_state, if_true] at hu
        exact .inr ⟨rfl, u, hu, by simpa using h.symm⟩

/-- The four outcomes of the boot step (R192). -/
theorem stepBoot_cases (s : State) :
    (s.initOk = false ∧ stepBoot s = raiseHalt .init s) ∨
    (s.initOk = true ∧ s.bootSel = true ∧
      stepBoot s = { s with mode := .cmdLoop, fsm := .waitLen, trace := s.trace ++ [.bootCmdLoop] }) ∨
    (s.initOk = true ∧ s.bootSel = false ∧ s.cfg.spValid (Memory.word s.mem s.cfg.appBase) = false ∧
      stepBoot s = raiseHalt .badSp { s with reads := s.reads ++ [s.cfg.appBase] }) ∨
    (s.initOk = true ∧ s.bootSel = false ∧ s.cfg.spValid (Memory.word s.mem s.cfg.appBase) = true ∧
      stepBoot s = handOff (Memory.word s.mem s.cfg.appBase) (Memory.word s.mem (s.cfg.appBase + 4))
        { s with reads := s.reads ++ [s.cfg.appBase] ++ [s.cfg.appBase + 4] }) := by
  unfold stepBoot
  obtain ⟨i, hi⟩ : ∃ i, s.initOk = i := ⟨_, rfl⟩
  obtain ⟨b, hb⟩ : ∃ b, s.bootSel = b := ⟨_, rfl⟩
  obtain ⟨v, hv⟩ : ∃ v, s.cfg.spValid (Memory.word s.mem s.cfg.appBase) = v := ⟨_, rfl⟩
  cases i with
  | false => exact .inl ⟨hi, by simp [hi, raise]⟩
  | true =>
    cases b with
    | true => exact .inr (.inl ⟨hi, hb, by simp [hi, hb, State.addTrace]⟩)
    | false =>
      cases v with
      | false => exact .inr (.inr (.inl ⟨hi, hb, hv, by simp [hi, hb, State.memRead, hv, raise]⟩))
      | true => exact .inr (.inr (.inr ⟨hi, hb, hv, by simp [hi, hb, State.memRead, hv]⟩))

end Sys2Proof.Machine
end

