-- ==== Sys2Proof/Laws/Exec.lean ====
section
/-! SUPPORT. What the handlers and the completion procedure do, said once for all of them, and how runs compose. -/

namespace Sys2Proof.Machine

/-- All that a command can do: push its reply, leave its label, record its reads. -/
theorem exec_cases {i : Instr} {s t : State} (h : exec i s = .next t) :
    t = { s with
      tx := s.tx ++ instrReply s.cfg s.mem i
      trace := s.trace ++ [instrLabel s.cfg i]
      reads := s.reads ++ instrReads s.cfg i } := by
  cases i <;>
    simp only [exec, execGetVer, execGetHelp, execGetCid, execGetRdp, execGoToAddr, execFlashErase, execMemWrite,
      execEnRwProtect, execMemRead, execReadSectorStatus, execOtpRead, execDisRwProtect, execUnknown, State.memRead,
      raise, raisePacket_eq] at h
  case getVer => obtain ⟨_, rfl⟩ := acknowledge_cases h; simp [instrReply, instrLabel, instrReads]
  case getHelp => obtain ⟨_, rfl⟩ := acknowledge_cases h; simp [instrReply, instrLabel, instrReads]
  case getCid => obtain ⟨_, rfl⟩ := acknowledge_cases h; simp [instrReply, instrLabel, instrReads]
  case getRdp => obtain ⟨_, rfl⟩ := acknowledge_cases h; simp [instrReply, instrLabel, instrReads]
  all_goals
    simp only [Host.Outcome.next.injEq] at h
    subst h
    simp [instrReply, instrLabel, instrReads, Cause.response]

/-- Under R8 (e) every command answers a next state. -/
theorem exec_next (i : Instr) (s : State) (h : s.cfg.supportedCmds.length ≤ 255) : ∃ t, exec i s = .next t := by
  cases i <;>
    simp only [exec, execGetVer, execGetHelp, execGetCid, execGetRdp, execGoToAddr, execFlashErase, execMemWrite,
      execEnRwProtect, execMemRead, execReadSectorStatus, execOtpRead, execDisRwProtect, execUnknown, State.memRead]
  case getVer => rw [acknowledge_fits _ _ (by simp)]; exact ⟨_, rfl⟩
  case getHelp => rw [acknowledge_fits _ _ h]; exact ⟨_, rfl⟩
  case getCid => rw [acknowledge_fits _ _ (by cases s.cfg.byteOrder <;> simp [bytes16])]; exact ⟨_, rfl⟩
  case getRdp => rw [acknowledge_fits _ _ (by simp)]; exact ⟨_, rfl⟩
  all_goals exact ⟨_, rfl⟩

/-- The completion procedure on a packet whose bytes stand in the buffer: what its decoding says (R140, R143). -/
theorem completePacket_decode {s : State} {l : Byte} {body : List Byte} (hb : body.length = l.toNat)
    (hcap : l.toNat + 1 ≤ Config.rxCap) (hr : s.rxLen = l) (hc : s.crcAcc = s.cfg.crcInit)
    (h : ∀ j, j < l.toNat + 1 → Cells.get? s.rxBuf j = (l :: body)[j]?) :
    completePacket s =
      match decode s.cfg (l :: body) with
      | .ok (i, _) => andThen (exec i s) fun u => .next (rearm u)
      | .error .badChecksum => .next (rearm (raise .crc s))
      | .error _ => .next (rearm (raise .short s)) := by
  have fresh : { s with crcAcc := s.cfg.crcInit } = s := by rw [← hc]
  by_cases h5 : l.toNat < Config.minLen
  · rw [decode_cons, if_neg (by omega), if_neg (by omega), if_pos h5]
    unfold completePacket
    rw [hr, if_pos h5]
  · rw [decode_whole hb hcap (by omega)]
    simp only [Config.minLen] at h5
    obtain ⟨code, p, b0, b1, b2, b3, rfl, hp⟩ := fields_of_length (body := body) (by omega)
    unfold completePacket
    rw [hr, if_neg (by simpa [Config.minLen] using h5), readFields_of_cells (by omega) (fun j hj => h j (by omega)),
      decodeBody_fields]
    simp only [runPacket, verify_fresh hc, verify_state, fresh]
    by_cases e : word32 s.cfg.byteOrder b0 b1 b2 b3 = crc32w s.cfg (l :: code :: p)
    · rw [if_pos e, if_pos (by simp [e])]
    · rw [if_neg e, if_neg (by simpa using fun h => e h.symm)]; rfl

/-- `n + 1` steps are a step and `n` steps. -/
theorem runs_succ (n : Nat) (s : State) : runs (n + 1) s = andThen (step s) (runs n) := by
  have e : core.step s = step s := rfl
  simp only [runs, Host.Core.run, e]
  cases step s <;> rfl

/-- `n + k` steps are `n` steps and `k` steps. -/
theorem runs_add (n k : Nat) (s : State) : runs (n + k) s = andThen (runs n s) (runs k) := by
  induction n generalizing s with
  | zero => rw [Nat.zero_add]; rfl
  | succ n ih =>
    rw [Nat.succ_add, runs_succ, runs_succ]
    cases step s with
    | next u => simp [ih]
    | fault r => rfl
    | refused r => rfl

end Sys2Proof.Machine
end

