-- ==== Sys2Proof/Laws/PerInstr.lean ====
section
/-! SUPPORT. Statements about every instruction as syntax, one lemma a constructor. Family `CodeMap`: under pairwise
distinct codes (R8 (a)) the command code map of R77 gives each well-formed instruction back from its code. -/

namespace Sys2Proof.Laws.CodeMap

/-- The code map reads the instruction's own code as that instruction. -/
def Statement (i : Instr) : Prop :=
  ∀ c : Config, c.codesDistinct = true → i.codeLegal c = true → decodeCommand c (i.code c) i.payload = i

/-- Pairwise distinctness, spelt in the order the code map tests. -/
theorem ne_of_distinct {c : Config} (h : c.codesDistinct = true) :
    c.codes.getHelp ≠ c.codes.getVer ∧
    c.codes.getCid ≠ c.codes.getVer ∧ c.codes.getCid ≠ c.codes.getHelp ∧
    c.codes.getRdp ≠ c.codes.getVer ∧ c.codes.getRdp ≠ c.codes.getHelp ∧ c.codes.getRdp ≠ c.codes.getCid ∧
    c.codes.goToAddr ≠ c.codes.getVer ∧ c.codes.goToAddr ≠ c.codes.getHelp ∧ c.codes.goToAddr ≠ c.codes.getCid ∧ c.codes.goToAddr ≠ c.codes.getRdp ∧
    c.codes.flashErase ≠ c.codes.getVer ∧ c.codes.flashErase ≠ c.codes.getHelp ∧ c.codes.flashErase ≠ c.codes.getCid ∧ c.codes.flashErase ≠ c.codes.getRdp ∧ c.codes.flashErase ≠ c.codes.goToAddr ∧
    c.codes.memWrite ≠ c.codes.getVer ∧ c.codes.memWrite ≠ c.codes.getHelp ∧ c.codes.memWrite ≠ c.codes.getCid ∧ c.codes.memWrite ≠ c.codes.getRdp ∧ c.codes.memWrite ≠ c.codes.goToAddr ∧ c.codes.memWrite ≠ c.codes.flashErase ∧
    c.codes.enRwProtect ≠ c.codes.getVer ∧ c.codes.enRwProtect ≠ c.codes.getHelp ∧ c.codes.enRwProtect ≠ c.codes.getCid ∧ c.codes.enRwProtect ≠ c.codes.getRdp ∧ c.codes.enRwProtect ≠ c.codes.goToAddr ∧ c.codes.enRwProtect ≠ c.codes.flashErase ∧ c.codes.enRwProtect ≠ c.codes.memWrite ∧
    c.codes.memRead ≠ c.codes.getVer ∧ c.codes.memRead ≠ c.codes.getHelp ∧ c.codes.memRead ≠ c.codes.getCid ∧ c.codes.memRead ≠ c.codes.getRdp ∧ c.codes.memRead ≠ c.codes.goToAddr ∧ c.codes.memRead ≠ c.codes.flashErase ∧ c.codes.memRead ≠ c.codes.memWrite ∧ c.codes.memRead ≠ c.codes.enRwProtect ∧
    c.codes.readSectorStatus ≠ c.codes.getVer ∧ c.codes.readSectorStatus ≠ c.codes.getHelp ∧ c.codes.readSectorStatus ≠ c.codes.getCid ∧ c.codes.readSectorStatus ≠ c.codes.getRdp ∧ c.codes.readSectorStatus ≠ c.codes.goToAddr ∧ c.codes.readSectorStatus ≠ c.codes.flashErase ∧ c.codes.readSectorStatus ≠ c.codes.memWrite ∧ c.codes.readSectorStatus ≠ c.codes.enRwProtect ∧ c.codes.readSectorStatus ≠ c.codes.memRead ∧
    c.codes.otpRead ≠ c.codes.getVer ∧ c.codes.otpRead ≠ c.codes.getHelp ∧ c.codes.otpRead ≠ c.codes.getCid ∧ c.codes.otpRead ≠ c.codes.getRdp ∧ c.codes.otpRead ≠ c.codes.goToAddr ∧ c.codes.otpRead ≠ c.codes.flashErase ∧ c.codes.otpRead ≠ c.codes.memWrite ∧ c.codes.otpRead ≠ c.codes.enRwProtect ∧ c.codes.otpRead ≠ c.codes.memRead ∧ c.codes.otpRead ≠ c.codes.readSectorStatus ∧
    c.codes.disRwProtect ≠ c.codes.getVer ∧ c.codes.disRwProtect ≠ c.codes.getHelp ∧ c.codes.disRwProtect ≠ c.codes.getCid ∧ c.codes.disRwProtect ≠ c.codes.getRdp ∧ c.codes.disRwProtect ≠ c.codes.goToAddr ∧ c.codes.disRwProtect ≠ c.codes.flashErase ∧ c.codes.disRwProtect ≠ c.codes.memWrite ∧ c.codes.disRwProtect ≠ c.codes.enRwProtect ∧ c.codes.disRwProtect ≠ c.codes.memRead ∧ c.codes.disRwProtect ≠ c.codes.readSectorStatus ∧ c.codes.disRwProtect ≠ c.codes.otpRead := by
  have h : c.codes.all.Nodup := by simpa [Config.codesDistinct] using h
  simp only [Codes.all, List.nodup_cons, List.mem_cons, not_or, List.not_mem_nil, or_false] at h
  exact ⟨Ne.symm h.1.1, Ne.symm h.1.2.1, Ne.symm h.2.1.1, Ne.symm h.1.2.2.1, Ne.symm h.2.1.2.1, Ne.symm
    h.2.2.1.1, Ne.symm h.1.2.2.2.1, Ne.symm h.2.1.2.2.1, Ne.symm h.2.2.1.2.1, Ne.symm h.2.2.2.1.1, Ne.symm
    h.1.2.2.2.2.1, Ne.symm h.2.1.2.2.2.1, Ne.symm h.2.2.1.2.2.1, Ne.symm h.2.2.2.1.2.1, Ne.symm
    h.2.2.2.2.1.1, Ne.symm h.1.2.2.2.2.2.1, Ne.symm h.2.1.2.2.2.2.1, Ne.symm h.2.2.1.2.2.2.1, Ne.symm
    h.2.2.2.1.2.2.1, Ne.symm h.2.2.2.2.1.2.1, Ne.symm h.2.2.2.2.2.1.1, Ne.symm h.1.2.2.2.2.2.2.1, Ne.symm
    h.2.1.2.2.2.2.2.1, Ne.symm h.2.2.1.2.2.2.2.1, Ne.symm h.2.2.2.1.2.2.2.1, Ne.symm h.2.2.2.2.1.2.2.1,
    Ne.symm h.2.2.2.2.2.1.2.1, Ne.symm h.2.2.2.2.2.2.1.1, Ne.symm h.1.2.2.2.2.2.2.2.1, Ne.symm
    h.2.1.2.2.2.2.2.2.1, Ne.symm h.2.2.1.2.2.2.2.2.1, Ne.symm h.2.2.2.1.2.2.2.2.1, Ne.symm
    h.2.2.2.2.1.2.2.2.1, Ne.symm h.2.2.2.2.2.1.2.2.1, Ne.symm h.2.2.2.2.2.2.1.2.1, Ne.symm
    h.2.2.2.2.2.2.2.1.1, Ne.symm h.1.2.2.2.2.2.2.2.2.1, Ne.symm h.2.1.2.2.2.2.2.2.2.1, Ne.symm
    h.2.2.1.2.2.2.2.2.2.1, Ne.symm h.2.2.2.1.2.2.2.2.2.1, Ne.symm h.2.2.2.2.1.2.2.2.2.1, Ne.symm
    h.2.2.2.2.2.1.2.2.2.1, Ne.symm h.2.2.2.2.2.2.1.2.2.1, Ne.symm h.2.2.2.2.2.2.2.1.2.1, Ne.symm
    h.2.2.2.2.2.2.2.2.1.1, Ne.symm h.1.2.2.2.2.2.2.2.2.2.1, Ne.symm h.2.1.2.2.2.2.2.2.2.2.1, Ne.symm
    h.2.2.1.2.2.2.2.2.2.2.1, Ne.symm h.2.2.2.1.2.2.2.2.2.2.1, Ne.symm h.2.2.2.2.1.2.2.2.2.2.1, Ne.symm
    h.2.2.2.2.2.1.2.2.2.2.1, Ne.symm h.2.2.2.2.2.2.1.2.2.2.1, Ne.symm h.2.2.2.2.2.2.2.1.2.2.1, Ne.symm
    h.2.2.2.2.2.2.2.2.1.2.1, Ne.symm h.2.2.2.2.2.2.2.2.2.1.1, Ne.symm h.1.2.2.2.2.2.2.2.2.2.2, Ne.symm
    h.2.1.2.2.2.2.2.2.2.2.2, Ne.symm h.2.2.1.2.2.2.2.2.2.2.2, Ne.symm h.2.2.2.1.2.2.2.2.2.2.2, Ne.symm
    h.2.2.2.2.1.2.2.2.2.2.2, Ne.symm h.2.2.2.2.2.1.2.2.2.2.2, Ne.symm h.2.2.2.2.2.2.1.2.2.2.2, Ne.symm
    h.2.2.2.2.2.2.2.1.2.2.2, Ne.symm h.2.2.2.2.2.2.2.2.1.2.2, Ne.symm h.2.2.2.2.2.2.2.2.2.1.2, Ne.symm
    h.2.2.2.2.2.2.2.2.2.2.1⟩

theorem getVer (p : List Byte) : Statement (.getVer p) := by
  intro c _ _
  simp [decodeCommand, Instr.code, Instr.payload]

theorem getHelp (p : List Byte) : Statement (.getHelp p) := by
  intro c h _
  simp [decodeCommand, Instr.code, Instr.payload, ne_of_distinct h]

theorem getCid (p : List Byte) : Statement (.getCid p) := by
  intro c h _
  simp [decodeCommand, Instr.code, Instr.payload, ne_of_distinct h]

theorem getRdp (p : List Byte) : Statement (.getRdp p) := by
  intro c h _
  simp [decodeCommand, Instr.code, Instr.payload, ne_of_distinct h]

theorem goToAddr (p : List Byte) : Statement (.goToAddr p) := by
  intro c h _
  simp [decodeCommand, Instr.code, Instr.payload, ne_of_distinct h]

theorem flashErase (p : List Byte) : Statement (.flashErase p) := by
  intro c h _
  simp [decodeCommand, Instr.code, Instr.payload, ne_of_distinct h]

theorem memWrite (p : List Byte) : Statement (.memWrite p) := by
  intro c h _
  simp [decodeCommand, Instr.code, Instr.payload, ne_of_distinct h]

theorem enRwProtect (p : List Byte) : Statement (.enRwProtect p) := by
  intro c h _
  simp [decodeCommand, Instr.code, Instr.payload, ne_of_distinct h]

theorem memRead (p : List Byte) : Statement (.memRead p) := by
  intro c h _
  simp [decodeCommand, Instr.code, Instr.payload, ne_of_distinct h]

theorem readSectorStatus (p : List Byte) : Statement (.readSectorStatus p) := by
  intro c h _
  simp [decodeCommand, Instr.code, Instr.payload, ne_of_distinct h]

theorem otpRead (p : List Byte) : Statement (.otpRead p) := by
  intro c h _
  simp [decodeCommand, Instr.code, Instr.payload, ne_of_distinct h]

theorem disRwProtect (p : List Byte) : Statement (.disRwProtect p) := by
  intro c h _
  simp [decodeCommand, Instr.code, Instr.payload, ne_of_distinct h]

theorem unknown (code : Byte) (p : List Byte) : Statement (.unknown code p) := by
  intro c _ hl
  simp only [Instr.codeLegal, Codes.all, Bool.not_eq_true', List.contains_eq_mem, decide_eq_false_iff_not,
    List.mem_cons, List.not_mem_nil, or_false, not_or] at hl
  simp [decodeCommand, Instr.code, Instr.payload, hl]

end Sys2Proof.Laws.CodeMap
end

