-- ==== Sys2Proof/Tests/Slice0.lean ====
section
/-! SUPPORT. Named tests. Expected values: spec/95_test_vectors.md (the vectors named in the comments), with its
illustrative addresses and words; and, for each obligation with hypotheses, a witness that meets them. -/

namespace Sys2Proof.Tests

open Sys2Proof Sys2Proof.Machine

set_option Elab.async false

/-! ## States -/

/-- The parameters of the vectors: the defaults, and the three illustrative addresses (G11). -/
def cfg : Config :=
  { Config.default with appBaseWord := 0x02004000, chipIdWord := 0x38010800, optionByteWord := 0x07FFC000 }

/-- Four cells that hold a word (log 5). -/
def wordAt (a : Nat) (w : Word) : List Host.Cell :=
  [(a, byteOf w 0), (a + 1, byteOf w 1), (a + 2, byteOf w 2), (a + 3, byteOf w 3)]

/-- The memory of the vectors. -/
def mem : List Host.Cell :=
  wordAt 0x08010000 0x20080000 ++ wordAt 0x08010004 0x08010199 ++ wordAt 0x1FFF0000 0xFFFFAAEC
    ++ wordAt 0xE0042000 0x10016451

/-- Before the boot step. -/
def boot (initOk bootSel : Bool) : State :=
  { State.reset with cfg := cfg, mem := mem, initOk := initOk, bootSel := bootSel }

/-- In the command loop, idle, these bytes on `rx`. -/
def loop (rx : List Byte) : State :=
  { boot true true with mode := .cmdLoop, trace := [.reset, .bootCmdLoop], rx := rx }

/-- All of a packet but its last byte received, the last one next on `rx`. -/
def placed (bs : List Byte) : State := { (loop []).placePacket bs with env := [] }

/-- Draining, `n` bytes left of a packet with length byte 200, these bytes on `rx`. -/
def draining (n : Nat) (rx : List Byte) : State := { loop rx with fsm := .drain, rxLen := 200, drainRem := n }

/-- One field of the next state. -/
def look {α : Type} (f : State → α) : Out → Option α
  | .next s => some (f s)
  | .fault _ => none
  | .refused _ => none

/-- The block's turn with an empty schedule. -/
theorem turn {s : State} (h : s.env = []) : BlockTurn s s := .inl ⟨h, rfl⟩

/-! ## WellFormed: each check refuses an ill-formed term -/

theorem test_wf_payload_194 : (Instr.getVer (List.replicate 194 0)).wf Config.default = true := by decide +kernel

theorem test_wf_payload_195 : (Instr.getVer (List.replicate 195 0)).wf Config.default = false := by decide +kernel

theorem test_wf_unknown_code_taken : (Instr.unknown 0x51 []).wf Config.default = false := by decide +kernel

theorem test_wf_unknown_code_free : (Instr.unknown 0x50 []).wf Config.default = true := by decide +kernel

theorem test_cfg_codes_equal :
    Config.wf { Config.default with codes := { Codes.default with getRdp := 0x51 } } = false := by decide +kernel

theorem test_cfg_list_too_long : Config.wf { Config.default with supportedCmds := List.replicate 256 0 } = false := by
  decide +kernel

/-! ## Decode: the shortest packet of each row (V5.1 to V5.13) -/

theorem test_decode_getVer : decode Config.default [0x05, 0x51, 0xE7, 0xE9, 0xAB, 0x7C] = .ok (.getVer [], []) := by
  decide +kernel

theorem test_decode_getHelp : decode Config.default [0x05, 0x52, 0x3E, 0xCF, 0xE8, 0x71] = .ok (.getHelp [], []) := by
  decide +kernel

theorem test_decode_getCid : decode Config.default [0x05, 0x53, 0x89, 0xD2, 0x29, 0x75] = .ok (.getCid [], []) := by
  decide +kernel

theorem test_decode_getRdp : decode Config.default [0x05, 0x54, 0x8C, 0x82, 0x6E, 0x6B] = .ok (.getRdp [], []) := by
  decide +kernel

theorem test_decode_goToAddr : decode Config.default [0x05, 0x55, 0x3B, 0x9F, 0xAF, 0x6F] = .ok (.goToAddr [], []) := by
  decide +kernel

theorem test_decode_flashErase : decode Config.default [0x05, 0x56, 0xE2, 0xB9, 0xEC, 0x62] = .ok (.flashErase [], []) := by
  decide +kernel

theorem test_decode_memWrite : decode Config.default [0x05, 0x57, 0x55, 0xA4, 0x2D, 0x66] = .ok (.memWrite [], []) := by
  decide +kernel

theorem test_decode_enRwProtect : decode Config.default [0x05, 0x58, 0xE8, 0x19, 0x62, 0x5E] = .ok (.enRwProtect [], []) := by
  decide +kernel

theorem test_decode_memRead : decode Config.default [0x05, 0x59, 0x5F, 0x04, 0xA3, 0x5A] = .ok (.memRead [], []) := by
  decide +kernel

theorem test_decode_readSectorStatus : decode Config.default [0x05, 0x5A, 0x86, 0x22, 0xE0, 0x57] = .ok (.readSectorStatus [], []) := by
  decide +kernel

theorem test_decode_otpRead : decode Config.default [0x05, 0x5B, 0x31, 0x3F, 0x21, 0x53] = .ok (.otpRead [], []) := by
  decide +kernel

theorem test_decode_disRwProtect : decode Config.default [0x05, 0x5C, 0x34, 0x6F, 0x66, 0x4D] = .ok (.disRwProtect [], []) := by
  decide +kernel

theorem test_decode_unknown : decode Config.default [0x05, 0x00, 0x57, 0x5F, 0xFD, 0x00] = .ok (.unknown 0x00 [], []) := by
  decide +kernel

/-- V2.8: a payload, and the bytes after the packet are left over. -/
theorem test_decode_payload : decode Config.default [0x07, 0x51, 0x12, 0x34, 0x28, 0xBF, 0x7D, 0x9A, 0x05]
    = .ok (.getVer [0x12, 0x34], [0x05]) := by decide +kernel

/-- V2.13. -/
theorem test_decode_wrong_order :
    decode Config.default [0x05, 0x51, 0x7C, 0xAB, 0xE9, 0xE7] = .error .badChecksum := by decide +kernel

/-- V2.13. -/
theorem test_decode_big_endian :
    decode { Config.default with byteOrder := .big } [0x05, 0x51, 0x7C, 0xAB, 0xE9, 0xE7] = .ok (.getVer [], []) := by
  decide +kernel

/-- The opcode table's numbering: bits 7 to 0 are the command code. -/
theorem test_table_word : decodeTableWord 8 0x53 = some (.getCid []) := by decide +kernel

theorem test_table_word_wide : decodeTableWord 24 0x341251 = some (.getVer [0x12, 0x34]) := by decide +kernel

/-! ## One step of each row, as the table's word (V5.1 to V5.13): reply and last label -/

/-- The vectors' launch state with a table word placed. -/
def fetched (w : Nat) : State := (boot true true).withFetchWord 8 w

theorem test_step_getVer :
    look (fun t => (t.tx, t.trace.getLast?, t.fsm)) (step (fetched 0x51)) = some ([0xA5, 0x01, 0x10], some (.ack 0x51), .waitLen) := by
  decide +kernel

theorem test_step_getHelp :
    look (fun t => (t.tx, t.trace.getLast?, t.fsm)) (step (fetched 0x52)) = some ([0xA5, 0x04, 0x51, 0x52, 0x53, 0x54], some (.ack 0x52), .waitLen) := by
  decide +kernel

theorem test_step_getCid :
    look (fun t => (t.tx, t.trace.getLast?, t.fsm)) (step (fetched 0x53)) = some ([0xA5, 0x02, 0x51, 0x04], some (.ack 0x53), .waitLen) := by
  decide +kernel

theorem test_step_getRdp :
    look (fun t => (t.tx, t.trace.getLast?, t.fsm)) (step (fetched 0x54)) = some ([0xA5, 0x01, 0xAA], some (.ack 0x54), .waitLen) := by
  decide +kernel

theorem test_step_goToAddr :
    look (fun t => (t.tx, t.trace.getLast?, t.fsm)) (step (fetched 0x55)) = some ([0x7F], some (.nack .reserved), .waitLen) := by
  decide +kernel

theorem test_step_flashErase :
    look (fun t => (t.tx, t.trace.getLast?, t.fsm)) (step (fetched 0x56)) = some ([0x7F], some (.nack .reserved), .waitLen) := by
  decide +kernel

theorem test_step_memWrite :
    look (fun t => (t.tx, t.trace.getLast?, t.fsm)) (step (fetched 0x57)) = some ([0x7F], some (.nack .reserved), .waitLen) := by
  decide +kernel

theorem test_step_enRwProtect :
    look (fun t => (t.tx, t.trace.getLast?, t.fsm)) (step (fetched 0x58)) = some ([0x7F], some (.nack .reserved), .waitLen) := by
  decide +kernel

theorem test_step_memRead :
    look (fun t => (t.tx, t.trace.getLast?, t.fsm)) (step (fetched 0x59)) = some ([0x7F], some (.nack .reserved), .waitLen) := by
  decide +kernel

theorem test_step_readSectorStatus :
    look (fun t => (t.tx, t.trace.getLast?, t.fsm)) (step (fetched 0x5A)) = some ([0x7F], some (.nack .reserved), .waitLen) := by
  decide +kernel

theorem test_step_otpRead :
    look (fun t => (t.tx, t.trace.getLast?, t.fsm)) (step (fetched 0x5B)) = some ([0x7F], some (.nack .reserved), .waitLen) := by
  decide +kernel

theorem test_step_disRwProtect :
    look (fun t => (t.tx, t.trace.getLast?, t.fsm)) (step (fetched 0x5C)) = some ([0x7F], some (.nack .reserved), .waitLen) := by
  decide +kernel

theorem test_step_unknown :
    look (fun t => (t.tx, t.trace.getLast?, t.fsm)) (step (fetched 0x00)) = some ([], some (.drop .unknown), .waitLen) := by
  decide +kernel

/-! ## Byte order and checksum (section 2 of the vectors) -/

theorem test_crc_one : crcStep 0x04C11DB7 0 1 = 0x04C11DB7 := by decide +kernel

theorem test_crc_top_bit : crcStep 0x04C11DB7 0 0x80000000 = 0xA6E63D1D := by decide +kernel

theorem test_crc_bytes : [[0x00], [0x05], [0x05, 0x51], [0x07, 0x51, 0x12, 0x34]].map (crc32w Config.default)
    = [0xC704DD7B, 0xD0C1B610, 0x7CABE9E7, 0x9A7DBF28] := by decide +kernel

theorem test_crc_nine_characters :
    crc32w Config.default [0x31, 0x32, 0x33, 0x34, 0x35, 0x36, 0x37, 0x38, 0x39] = 0x1556F485 := by decide +kernel

/-! ## Replies that depend on parameters and `MEM` (section 5) -/

theorem test_cid_masked :
    look State.tx (step { fetched 0x53 with mem := wordAt 0xE0042000 0xFFFFFFFF }) = some [0xA5, 0x02, 0xFF, 0x0F] := by
  decide +kernel

theorem test_cid_big_endian :
    look State.tx (exec (.getCid []) { loop [] with cfg := { cfg with byteOrder := .big } })
      = some [0xA5, 0x02, 0x04, 0x51] := by decide +kernel

theorem test_rdp_index :
    [0, 1, 2, 3].map (fun k => look State.tx (exec (.getRdp [])
        { loop [] with cfg := { cfg with rdpByteIndex := k }, mem := wordAt 0x1FFF0000 0x12345678 }))
      = [some [0xA5, 1, 0x78], some [0xA5, 1, 0x56], some [0xA5, 1, 0x34], some [0xA5, 1, 0x12]] := by decide +kernel

/-! ## Reader, completion, boot, reset (sections 3, 4, 6, 7) -/

/-- V4.7: a wrong checksum wins over an unknown code. -/
theorem test_checksum_before_code :
    look (fun t => (t.tx, t.trace.getLast?, t.crcAcc)) (step (placed [0x05, 0x00, 0x57, 0x5F, 0xFD, 0x80]))
      = some ([0x7F], some (.nack .crc), 0xFFFFFFFF) := by decide +kernel

/-- V4.4. -/
theorem test_short : look (fun t => (t.tx, t.trace.getLast?)) (step (placed [0x04, 0x51, 0x01, 0x02, 0x03]))
    = some ([0x7F], some (.nack .short)) := by decide +kernel

/-- V4.1. -/
theorem test_length_zero : look (fun t => (t.tx, t.trace)) (step (loop [0x00]))
    = some ([0x7F], [.reset, .bootCmdLoop, .len 0, .nack .short]) := by decide +kernel

/-- V3.1. -/
theorem test_length_byte : look (fun t => (t.rxLen, t.rxBuf, t.rxCnt, t.fsm)) (step (loop [0x05]))
    = some (0x05, [(0, 0x05)], 1, .recv) := by decide +kernel

/-- V3.5, V3.6. -/
theorem test_oversize : look (fun t => (t.fsm, t.drainRem, t.rxBuf)) (step (loop [0xC8])) = some (.drain, 200, []) ∧
    look (fun t => (t.fsm, t.tx)) (step (draining 1 [0xAA])) = some (.waitLen, [0x7F]) := by decide +kernel

/-- V3.10, V3.12, V3.13. -/
theorem test_timeout :
    look (fun t => (t.fsm, t.tx, t.trace.getLast?))
        (step { placed [0x09, 0x51, 0x00, 0x00, 0x00] with cfg := { cfg with rxTimeoutEn := true }, env := [.rxTimeout] })
      = some (.waitLen, [], some (.drop .timeout)) ∧
    look State.fsm (step { placed [0x09, 0x51, 0x00] with env := [.rxTimeout] }) = some .recv := by decide +kernel

/-- V6.2, S8. -/
theorem test_handoff : look (fun t => (t.mode, t.hoSp, t.hoEntry, t.reads)) (step (boot true false))
    = some (.appJump, some 0x20080000, some 0x08010199, [0x08010000, 0x08010004]) := by decide +kernel

/-- V6.6. -/
theorem test_bad_sp :
    look (fun t => (t.mode, t.hoSp, t.reads)) (step { boot true false with
        cfg := { cfg with spRanges := [(0x20000000, 0x20080000)] }, mem := wordAt 0x08010000 0xFFFFFFFF })
      = some (.halt, none, [0x08010000]) := by decide +kernel

/-- V6.3. -/
theorem test_init_failed : look (fun t => (t.mode, t.trace.getLast?)) (step (boot false true))
    = some (.halt, some (.halt .init)) := by decide +kernel

/-- V7.2. -/
theorem test_reset :
    look (fun t => (t.mode, t.fsm, t.rxBuf, t.rxCnt)) (step { placed [0x09, 0x51, 0x00, 0x00] with
        env := [.rst ⟨none, none, none, none⟩] }) = some (.reset, .waitLen, [], 0) := by decide +kernel

/-! ## Witnesses: for each obligation with hypotheses, a state and operands that meet them all -/

theorem loop_inv (rx : List Byte) : Inv (loop rx) where
  crc := rfl
  outside h := absurd rfl h
  waiting _ _ := ⟨rfl, rfl, rfl, fun _ => rfl⟩
  receiving _ h := by cases h
  draining _ h := by cases h
  handOff := ⟨fun h => (by cases h), fun h => (by cases h)⟩
  handOffValues := ⟨⟨fun h => (by cases h), fun h => (by cases h)⟩, ⟨fun h => (by cases h), fun h => (by cases h)⟩⟩
  quiet h := absurd rfl h

/-- A packet of length 5 with any code and checksum, its last byte next. -/
theorem placed_inv (c a0 a1 a2 a3 : Byte) : Inv (placed [5, c, a0, a1, a2, a3]) where
  crc := rfl
  outside h := absurd rfl h
  waiting _ h := by cases h
  receiving _ _ := by
    refine ⟨(by decide : 1 ≤ 5), (by decide : 5 + 1 ≤ 200), (by decide : 1 ≤ 5), (by decide : 5 ≤ 5), rfl, rfl, ?_, ?_⟩
    · intro i hi
      match i, hi with
      | 0, _ => rfl
      | 1, _ => rfl
      | 2, _ => rfl
      | 3, _ => rfl
      | 4, _ => rfl
      | n + 5, h => exact absurd (show n + 5 < 5 from h) (by omega)
    · intro i hi
      match i, hi with
      | 0, h => exact absurd (show 5 ≤ 0 from h) (by omega)
      | 1, h => exact absurd (show 5 ≤ 1 from h) (by omega)
      | 2, h => exact absurd (show 5 ≤ 2 from h) (by omega)
      | 3, h => exact absurd (show 5 ≤ 3 from h) (by omega)
      | 4, h => exact absurd (show 5 ≤ 4 from h) (by omega)
      | _ + 5, _ => rfl
  draining _ h := by cases h
  handOff := ⟨fun h => (by cases h), fun h => (by cases h)⟩
  handOffValues := ⟨⟨fun h => (by cases h), fun h => (by cases h)⟩, ⟨fun h => (by cases h), fun h => (by cases h)⟩⟩
  quiet h := absurd rfl h

theorem draining_inv (rx : List Byte) : Inv (draining 1 rx) where
  crc := rfl
  outside h := absurd rfl h
  waiting _ h := by cases h
  receiving _ h := by cases h
  draining _ _ := ⟨(by decide : 200 < 200 + 1), (by decide : 1 ≤ 1), (by decide : 1 ≤ 200), rfl, fun _ => rfl⟩
  handOff := ⟨fun h => (by cases h), fun h => (by cases h)⟩
  handOffValues := ⟨⟨fun h => (by cases h), fun h => (by cases h)⟩, ⟨fun h => (by cases h), fun h => (by cases h)⟩⟩
  quiet h := absurd rfl h

theorem placed_last (c a0 a1 a2 a3 : Byte) :
    LastByteNext (placed [5, c, a0, a1, a2, a3]) [5, c, a0, a1, a2, a3] [] where
  loop := rfl
  recv := rfl
  whole := ⟨5, _, rfl, rfl⟩
  len := rfl
  nonzero := (by decide : (5 : Byte) ≠ 0)
  cnt := rfl
  cells i hi := by
    match i, hi with
    | 0, _ => rfl
    | 1, _ => rfl
    | 2, _ => rfl
    | 3, _ => rfl
    | 4, _ => rfl
    | n + 5, h => exact absurd (show n + 5 < 5 from h) (by omega)
  next := ⟨a3, rfl, rfl⟩
  crc := rfl

theorem witness_ResetEventWritesTheBlock :
    ({ loop [] with env := [.rst ⟨some false, none, some [], some [1]⟩, .block] } : State).env
      = .rst ⟨some false, none, some [], some [1]⟩ :: [.block] := rfl

theorem witness_BootWithoutInitHalts : ∀ sel,
    BlockTurn (boot false sel) (boot false sel) ∧ (boot false sel).mode = .reset ∧ (boot false sel).initOk = false :=
  fun _ => ⟨turn rfl, rfl, rfl⟩

theorem witness_BootAssertedEntersCommandLoop :
    BlockTurn { boot true true with env := [.block] } (boot true true) ∧ (boot true true).mode = .reset ∧
      (boot true true).initOk = true ∧ (boot true true).bootSel = true := ⟨.inr ⟨[], rfl, rfl⟩, rfl, rfl, rfl⟩

/-- The predicate of V6.5 accepts its own bound. -/
theorem witness_BootDeassertedHandsOff :
    let s := { boot true false with cfg := { cfg with spRanges := [(0x20000000, 0x20080000)] } }
    BlockTurn s s ∧ s.mode = .reset ∧ s.initOk = true ∧ s.bootSel = false ∧
      s.cfg.spValid (Memory.word s.mem s.cfg.appBase) = true := ⟨turn rfl, rfl, rfl, rfl, by decide +kernel⟩

/-- One above the bound. -/
theorem witness_BootRejectedStackPointerHalts :
    let s := { boot true false with cfg := { cfg with spRanges := [(0x20000000, 0x2007FFFF)] } }
    BlockTurn s s ∧ s.mode = .reset ∧ s.initOk = true ∧ s.bootSel = false ∧
      s.cfg.spValid (Memory.word s.mem s.cfg.appBase) = false := ⟨turn rfl, rfl, rfl, rfl, by decide +kernel⟩

theorem witness_TerminalModesAreInert : ∀ m, m = Mode.appJump ∨ m = Mode.halt →
    let s := { boot true true with mode := m, env := [.hostSend 5, .rxTimeout, .setBootSel false, .block] }
    (s.mode = .appJump ∨ s.mode = .halt) ∧ (∀ l, EnvEvent.rst l ∉ s.env) ∧
      look State.rx (runs 5 s) = some [5] := by
  rintro m (rfl | rfl)
  · exact ⟨.inl rfl, by simp, by decide +kernel⟩
  · exact ⟨.inr rfl, by simp, by decide +kernel⟩

theorem witness_NothingSentOutsideCommandLoop :
    let s := { boot true false with rx := [0], env := [.block, .hostSend 5] }
    s.mode ≠ .cmdLoop ∧ (∀ l, EnvEvent.rst l ∉ s.env) ∧
      look (fun t => (t.mode, t.rx)) (runs 2 s) = some (.appJump, [0, 5]) :=
  ⟨by simp [boot, State.reset], by simp, by decide +kernel⟩

theorem witness_OutsideEventsTouchOnlyTheirPort :
    ({ loop [] with env := [.hostSend 5] } : State).env = .hostSend 5 :: [] ∧
    ({ loop [] with env := [.setBootSel false] } : State).env = .setBootSel false :: [] ∧
    ({ loop [] with env := [.setInitOk false] } : State).env = .setInitOk false :: [] := ⟨rfl, rfl, rfl⟩

/-- Enabled in both receiving states; without effect in each of the three other cases. -/
theorem witness_TimeoutDropsPartialPacket :
    let en := { cfg with rxTimeoutEn := true }
    (∀ s ∈ [{ placed [5, 0x51, 0] with cfg := en, env := [.rxTimeout] },
            { draining 1 [] with cfg := en, env := [.rxTimeout] }],
        s.env = .rxTimeout :: [] ∧ s.cfg.rxTimeoutEn = true ∧ s.mode = .cmdLoop ∧ (s.fsm = .recv ∨ s.fsm = .drain)) ∧
    (∀ s ∈ [{ placed [5, 0x51, 0] with env := [.rxTimeout] }, { boot true true with cfg := en, env := [.rxTimeout] },
            { loop [] with cfg := en, env := [.rxTimeout] }],
        s.env = .rxTimeout :: [] ∧ (s.cfg.rxTimeoutEn = false ∨ s.mode ≠ .cmdLoop ∨ s.fsm = .waitLen)) := by
  decide +kernel

theorem witness_EmptyStreamWaits :
    BlockTurn (loop []) (loop []) ∧ (loop []).mode = .cmdLoop ∧ (loop []).rx = [] := ⟨turn rfl, rfl, rfl⟩

/-- The smallest and the largest accepted length byte. -/
theorem witness_LengthByteAccepted : ∀ l ∈ [(1 : Byte), 199],
    BlockTurn (loop [l, 7]) (loop [l, 7]) ∧ (loop [l, 7]).mode = .cmdLoop ∧ (loop [l, 7]).fsm = .waitLen ∧
      (loop [l, 7]).rx = l :: [7] ∧ l.toNat + 1 ≤ 200 ∧ l ≠ 0 := by
  intro l hl
  refine ⟨turn rfl, rfl, rfl, rfl, ?_, ?_⟩ <;> revert l <;> decide

theorem witness_ZeroLengthPacketIsShort :
    BlockTurn (loop [0, 7]) (loop [0, 7]) ∧ (loop [0, 7]).mode = .cmdLoop ∧ (loop [0, 7]).fsm = .waitLen ∧
      (loop [0, 7]).rx = 0 :: [7] := ⟨turn rfl, rfl, rfl, rfl⟩

/-- The smallest and the largest oversize length byte. -/
theorem witness_OversizeLengthByteStartsDrain : ∀ l ∈ [(200 : Byte), 255],
    BlockTurn (loop [l]) (loop [l]) ∧ (loop [l]).mode = .cmdLoop ∧ (loop [l]).fsm = .waitLen ∧
      (loop [l]).rx = l :: [] ∧ 200 < l.toNat + 1 := by
  intro l hl
  refine ⟨turn rfl, rfl, rfl, rfl, ?_⟩
  revert l
  decide

/-- The first body byte and the last of the longest packet. -/
theorem witness_BodyByteStored :
    let s := fun n => { loop [7] with fsm := .recv, rxLen := 199, rxCnt := n }
    (∀ n ∈ [1, 199], BlockTurn (s n) (s n) ∧ (s n).mode = .cmdLoop ∧ (s n).fsm = .recv ∧ (s n).rx = 7 :: [] ∧
      (s n).rxCnt < 200) ∧ (s 1).rxCnt ≠ (s 1).rxLen.toNat ∧ (s 199).rxCnt = (s 199).rxLen.toNat := by
  refine ⟨fun n hn => ⟨turn rfl, rfl, rfl, rfl, ?_⟩, by decide, by decide⟩
  revert n
  decide

theorem witness_DrainDiscardsThenRejects : ∀ n ∈ [1, 2],
    BlockTurn (draining n [7]) (draining n [7]) ∧ (draining n [7]).mode = .cmdLoop ∧ (draining n [7]).fsm = .drain ∧
      (draining n [7]).rx = 7 :: [] ∧ (1 < (draining n [7]).drainRem ∨ (draining n [7]).drainRem = 1) := by
  intro n hn
  refine ⟨turn rfl, rfl, rfl, rfl, ?_⟩
  revert n
  decide

/-- The highest cell: the step before the last byte of the longest packet. -/
theorem witness_NoCellWrittenOutsideBuffer :
    look (fun t => Cells.get? t.rxBuf 199) (step { loop [7] with fsm := .recv, rxLen := 210, rxCnt := 199 })
      = some (some 7) := by decide +kernel

theorem witness_StreamConsumedFromHead : BlockTurn (loop [5, 7]) (loop [5, 7]) ∧
    look State.rx (step (loop [5, 7])) = some [7] := ⟨turn rfl, by decide +kernel⟩

/-- The three ways a packet ends. -/
theorem witness_ReplyOnlyWhenPacketEnds :
    (Inv (loop [0]) ∧ look State.tx (step (loop [0])) = some [0x7F]) ∧
    (Inv (placed [5, 0x51, 0, 0, 0, 0]) ∧ look State.tx (step (placed [5, 0x51, 0, 0, 0, 0])) = some [0x7F]) ∧
    (Inv (draining 1 [0]) ∧ look State.tx (step (draining 1 [0])) = some [0x7F]) :=
  ⟨⟨loop_inv _, by decide +kernel⟩, ⟨placed_inv .., by decide +kernel⟩, draining_inv _, by decide +kernel⟩

theorem witness_ShortPacketRejected : ∀ bs ∈ [[(1 : Byte), 0x51], [4, 0x51, 1, 2, 3]],
    BlockTurn (placed bs) (placed bs) ∧ (placed bs).mode = .cmdLoop ∧ (placed bs).fsm = .recv ∧
      (placed bs).rx = bs.getLastD 0 :: [] ∧ (placed bs).rxCnt = (placed bs).rxLen.toNat ∧
      (placed bs).rxLen.toNat < 5 := by
  intro bs hbs
  refine ⟨turn rfl, rfl, rfl, rfl, ?_, ?_⟩ <;> revert bs <;> decide

theorem witness_ChecksumFailureAnswersNack :
    BlockTurn (placed [5, 0x51, 0, 0, 0, 0]) (placed [5, 0x51, 0, 0, 0, 0]) ∧
    LastByteNext (placed [5, 0x51, 0, 0, 0, 0]) [5, 0x51, 0, 0, 0, 0] [] ∧
    decode (placed [5, 0x51, 0, 0, 0, 0]).cfg [5, 0x51, 0, 0, 0, 0] = .error .badChecksum :=
  ⟨turn rfl, placed_last .., by decide +kernel⟩

theorem witness_StepRunsDecodedPacket :
    let p : List Byte := [0x05, 0x53, 0x89, 0xD2, 0x29, 0x75]
    BlockTurn (placed p) (placed p) ∧ LastByteNext (placed p) p [] ∧ p.getLast? = some 0x75 ∧
      decode (placed p).cfg p = .ok (.getCid [], []) := ⟨turn rfl, placed_last .., rfl, by decide +kernel⟩

theorem witness_EncoderPushesTwoForms : (List.replicate 255 (0 : Byte)).length ≤ 255 := by decide +kernel

/-- The longest list R8 (e) allows, and the empty one (D6). -/
theorem witness_GetHelpAnswersCommandSet : ∀ n ∈ [0, 255],
    ({ loop [] with cfg := { cfg with supportedCmds := List.replicate n 0x51 } } : State).cfg.supportedCmds.length ≤ 255 := by
  decide +kernel

theorem witness_ReservedCommandsRaiseReserved : ∀ r ∈ [Response.nack, .silent],
    let s := { loop [] with cfg := { cfg with reservedCmdResponse := r } }
    Instr.otpRead [1] ∈ [Instr.goToAddr [1], .flashErase [1], .memWrite [1], .enRwProtect [1], .memRead [1],
      .readSectorStatus [1], .otpRead [1], .disRwProtect [1]] ∧
    (s.cfg.reservedCmdResponse = .nack ∨ s.cfg.reservedCmdResponse = .silent) := by decide

theorem witness_UnknownCommandRaisesUnknown : ∀ r ∈ [Response.nack, .silent],
    let s := { loop [] with cfg := { cfg with unknownCmdResponse := r } }
    s.cfg.unknownCmdResponse = .nack ∨ s.cfg.unknownCmdResponse = .silent := by decide

theorem witness_CommandsChangeOnlyReplyAndRecords :
    look State.tx (exec (.getCid [7]) (loop [])) = some [0xA5, 0x02, 0x51, 0x04] := by decide +kernel

theorem witness_PositiveRepliesHaveFixedSizes :
    (Instr.getHelp [7], 4) ∈ [(Instr.getVer [7], 1), (.getHelp [7], (loop []).cfg.supportedCmds.length),
      (.getCid [7], 2), (.getRdp [7], 1)] ∧
    look State.tx (exec (.getHelp [7]) (loop [])) = some [0xA5, 0x04, 0x51, 0x52, 0x53, 0x54] := by decide +kernel

theorem witness_OverlongCommandSetStops :
    255 < ({ loop [] with cfg := { cfg with supportedCmds := List.replicate 256 0x51 } } : State).cfg.supportedCmds.length := by
  decide +kernel

theorem witness_EveryCauseFollowsItsRow :
    (Cause.short, (loop []).cfg.malformedResponse) ∈ [(Cause.oversize, (loop []).cfg.malformedResponse),
      (.short, (loop []).cfg.malformedResponse), (.timeout, Response.silent), (.crc, .nack),
      (.reserved, (loop []).cfg.reservedCmdResponse), (.unknown, (loop []).cfg.unknownCmdResponse)] ∧
    Cause.badSp ∈ [Cause.init, .badSp] := by decide

theorem witness_CrcStepCorners : (5 : Word) ^^^ 0 = 4 ^^^ 1 := by decide

theorem witness_VerificationIsIsolated : (loop []).crcAcc = (loop []).cfg.crcInit := rfl

theorem witness_CoveredBitFlipChangesChecksum : ∀ k ∈ [0, 7], cfg.crcPoly.getLsbD 0 = true ∧ k < 8 := by decide

/-- A flip in the code byte, and one in the last checksum byte (V2.8). -/
theorem witness_SingleBitFlipIsRefused : cfg.crcPoly.getLsbD 0 = true ∧
    decode cfg (0x07 :: ([] ++ 0x51 :: [0x12, 0x34, 0x28, 0xBF, 0x7D, 0x9A])) = .ok (.getVer [0x12, 0x34], []) ∧
    decode cfg (0x07 :: ([0x51, 0x12, 0x34, 0x28, 0xBF, 0x7D] ++ 0x9A :: [])) = .ok (.getVer [0x12, 0x34], []) := by
  decide +kernel

/-- The longest payload, an empty one, and an unknown code that is a marker byte (V4.13). -/
theorem witness_DecodeEncodeGivesBack : cfg.codesDistinct = true ∧
    ∀ i ∈ [Instr.getVer (List.replicate 194 0xFF), .disRwProtect [], .unknown 0xA5 [1]], i.wf cfg = true := by
  decide +kernel

theorem witness_DecodedBytesAreTheEncoding :
    decode cfg [0x07, 0x51, 0x12, 0x34, 0x28, 0xBF, 0x7D, 0x9A, 0x05] = .ok (.getVer [0x12, 0x34], [0x05]) := by
  decide +kernel

/-- Each class at its boundary. -/
theorem witness_LengthClassesRejected :
    200 < (200 : Byte).toNat + 1 ∧
    ((4 : Byte).toNat < 5 ∧ (4 : Byte).toNat ≤ [(1 : Byte), 2, 3, 4].length) ∧
    ((199 : Byte).toNat + 1 ≤ 200 ∧ (List.replicate 198 (0 : Byte)).length < (199 : Byte).toNat) := by decide +kernel

theorem witness_StepKeepsInvariant :
    Inv (placed [0x05, 0x51, 0xE7, 0xE9, 0xAB, 0x7C]) ∧
    look State.tx (step (placed [0x05, 0x51, 0xE7, 0xE9, 0xAB, 0x7C])) = some [0xA5, 0x01, 0x10] :=
  ⟨placed_inv .., by decide +kernel⟩

theorem witness_StepKeepsCanonicalForm :
    Canonical { loop [5] with mem := [], env := [.block] } ∧
    look State.rxBuf (step { loop [5] with mem := [], env := [.block] }) = some [(0, 5)] :=
  ⟨⟨rfl, by simp [loop, boot, State.reset], rfl, by simp⟩, by decide +kernel⟩

theorem witness_StepNeverStops : Inv (placed [5, 0x51, 0, 0, 0, 0]) ∧ (placed [5, 0x51, 0, 0, 0, 0]).cfg.wf = true :=
  ⟨placed_inv .., by decide +kernel⟩

/-- The boot step, and a reset. -/
theorem witness_ModeChangesOnlyByBootOrReset :
    ((boot true true).mode = .reset ∧ look State.mode (step (boot true true)) = some .cmdLoop) ∧
    ((loop []).mode = .cmdLoop ∧
      look State.mode (step { loop [] with env := [.rst ⟨none, none, none, none⟩] }) = some .reset) := by decide +kernel

theorem witness_OnlyFourAddressesRead :
    look State.reads (step (placed [0x05, 0x53, 0x89, 0xD2, 0x29, 0x75])) = some [0xE0042000] := by decide +kernel

theorem witness_MemoryAndParametersFixed : (∀ l rest, (loop [5]).env ≠ .rst l :: rest) ∧
    look State.mem (step (loop [5])) = some mem := ⟨fun _ _ h => (by cases h), by decide +kernel⟩

theorem witness_OneReplyAtMostPerStep :
    look State.tx (step (placed [0x05, 0x54, 0x8C, 0x82, 0x6E, 0x6B])) = some [0xA5, 0x01, 0xAA] := by decide +kernel

/-- A `MemRead`, and an Acknowledge without one. -/
theorem witness_DisclosureOnlyAfterVerification :
    let p := placed [0x05, 0x53, 0x89, 0xD2, 0x29, 0x75]
    let q := placed [0x05, 0x51, 0xE7, 0xE9, 0xAB, 0x7C]
    (Inv p ∧ BlockTurn p p ∧ p.mode = .cmdLoop ∧ look State.reads (step p) = some [0xE0042000]) ∧
    (Inv q ∧ BlockTurn q q ∧ q.mode = .cmdLoop ∧ look State.tx (step q) = some (q.tx ++ ackBytes [0x10])) :=
  ⟨⟨placed_inv .., turn rfl, rfl, by decide +kernel⟩, placed_inv .., turn rfl, rfl, by decide +kernel⟩

theorem witness_NoReadNoDisclosure :
    let p := placed [0x05, 0x51, 0xE7, 0xE9, 0xAB, 0x7C]
    p.env = [] ∧ look State.reads (step p) = some p.reads := ⟨rfl, by decide +kernel⟩

/-- Every row of the table has a state, and a state after the boot step. -/
theorem witness_BootDecisionFollowsTable :
    (∀ a b, BlockTurn (boot a b) (boot a b) ∧ (boot a b).mode = .reset) ∧ (loop [5]).env = [] ∧ (loop [5]).mode ≠ .reset ∧
    look State.fsm (step (loop [5])) = some .recv := ⟨fun _ _ => ⟨turn rfl, rfl⟩, rfl, by simp [loop], by decide +kernel⟩

theorem witness_TraceIsNeverRead : look State.trace (step (loop [5])) = some [.reset, .bootCmdLoop, .len 5] := by
  decide +kernel

theorem witness_EnabledStepIsTaken :
    (Inv (loop [5]) ∧ (loop [5]).cfg.wf = true ∧ BlockTurn (loop [5]) (loop [5]) ∧ enabledStep (loop [5]) ≠ none) ∧
    (Inv (loop []) ∧ (loop []).cfg.wf = true ∧ BlockTurn (loop []) (loop []) ∧ enabledStep (loop []) = none) :=
  ⟨⟨loop_inv _, by decide +kernel, turn rfl, by decide +kernel⟩, loop_inv _, by decide +kernel, turn rfl, rfl⟩

/-- The shortest, a well-formed and the longest whole packet. -/
theorem witness_WholePacketAnswered :
    ∀ pkt ∈ [[(0 : Byte)], [0x05, 0x51, 0xE7, 0xE9, 0xAB, 0x7C], 255 :: List.replicate 255 0x51],
      Inv (loop (pkt ++ [9])) ∧ (loop (pkt ++ [9])).cfg.wf = true ∧ (loop (pkt ++ [9])).mode = .cmdLoop ∧
      (loop (pkt ++ [9])).fsm = .waitLen ∧ (loop (pkt ++ [9])).env = [] ∧ WholePacket pkt ∧
      (loop (pkt ++ [9])).rx = pkt ++ [9] := by
  intro pkt hp
  refine ⟨loop_inv _, (by decide +kernel : cfg.wf = true), rfl, rfl, rfl, ?_, rfl⟩
  simp only [List.mem_cons, List.not_mem_nil, or_false] at hp
  rcases hp with rfl | rfl | rfl
  · exact ⟨0, [], rfl, rfl⟩
  · exact ⟨0x05, _, rfl, rfl⟩
  · exact ⟨255, _, rfl, by decide +kernel⟩

theorem witness_SessionAnsweredInOrder :
    let pkts : List (List Byte) := [[0x05, 0x51, 0xE7, 0xE9, 0xAB, 0x7C], [0]]
    let s := loop (pkts.flatten ++ [9])
    Inv s ∧ s.cfg.wf = true ∧ s.mode = .cmdLoop ∧ s.fsm = .waitLen ∧ s.env = [] ∧
      (∀ pkt ∈ pkts, WholePacket pkt) ∧ s.rx = pkts.flatten ++ [9] := by
  refine ⟨loop_inv _, by decide +kernel, rfl, rfl, rfl, ?_, rfl⟩
  intro pkt hp
  simp only [List.mem_cons, List.not_mem_nil, or_false] at hp
  rcases hp with rfl | rfl
  · exact ⟨0x05, _, rfl, rfl⟩
  · exact ⟨0, [], rfl, rfl⟩

/-- Two blocks with different pasts. -/
theorem witness_ReplyIndependentOfHistory :
    let s := loop [0, 1]
    let u := { loop [0] with rxLen := 9, tx := [0x7F], trace := [] }
    Inv s ∧ Inv u ∧ s.cfg.wf = true ∧ s.cfg = u.cfg ∧ s.mem = u.mem ∧ s.mode = .cmdLoop ∧ u.mode = .cmdLoop ∧
      s.fsm = .waitLen ∧ u.fsm = .waitLen ∧ s.env = [] ∧ u.env = [] ∧ WholePacket [0] ∧ s.rx = [0] ++ [1] ∧
      u.rx = [0] ++ [] :=
  ⟨loop_inv _,
    ⟨rfl, fun h => absurd rfl h, fun _ _ => ⟨rfl, rfl, rfl, fun _ => rfl⟩, fun _ h => (by cases h),
      fun _ h => (by cases h), (loop_inv [0]).handOff, (loop_inv [0]).handOffValues, fun h => absurd rfl h⟩,
    by decide +kernel, rfl, rfl, rfl, rfl, rfl, rfl, rfl, rfl, ⟨0, [], rfl, rfl⟩, rfl, rfl⟩

theorem witness_ScheduleMakesNoDifference :
    let s := { loop [] with env := [.block, .hostSend 0, .setBootSel false, .block, .hostSend 7] }
    s.mode = .cmdLoop ∧ (∀ e ∈ s.env, quietEvent e = true) ∧
      look (fun t => (t.tx, t.rx)) (runs s.env.length s) = some ([0x7F], [7]) :=
  ⟨rfl, by decide, by decide +kernel⟩

end Sys2Proof.Tests
end

section
/-! PROOFS of the family `00_scope.md`: the step on the last byte of a packet, and the Acknowledge that is too long to
be framed. -/

namespace Sys2Proof.Machine

/-! ## The step on the last byte of a packet -/

/-- R103: the body byte at index `rx_len` is stored and the packet completed in the same step. -/
theorem stepRxBody_last {s : State} (b : Byte) (hin : s.rxCnt < Config.rxCap) (hcnt : s.rxCnt = s.rxLen.toNat) :
    stepRxBody b s = completePacket (received s b s.rx) := by
  rw [stepRxBody, writeCell_inside hin, andThen_next]
  exact if_pos (congrArg (· + 1) hcnt)

/-- The block's step when only the last byte of a packet that fits the buffer is missing. -/
theorem blockStep_of_lastByteNext {s : State} {pkt rest : List Byte} {b : Byte} (h : LastByteNext s pkt rest)
    (hb : pkt.getLast? = some b) (hcap : s.rxLen.toNat < Config.rxCap) :
    blockStep s = completePacket (received s b rest) := by
  obtain ⟨b', hb', hrx⟩ := h.next
  obtain rfl : b = b' := Option.some.inj (hb.symm.trans hb')
  have hin : s.rxCnt < Config.rxCap := h.cnt ▸ hcap
  calc blockStep s
    _ = stepRxBody b { s with rx := rest } := by simp [blockStep, h.loop, rxPop_cons hrx, readByte, h.recv]
    _ = completePacket (received s b rest) := stepRxBody_last b hin h.cnt

/-- Once its last byte is stored, the cells hold the whole packet (R103). -/
theorem get?_received_of_lastByteNext {s : State} {l : Byte} {body rest : List Byte} {b : Byte}
    (h : LastByteNext s (l :: body) rest) (hb : (l :: body).getLast? = some b) (hlen : body.length = s.rxCnt) :
    ∀ j, j < s.rxCnt + 1 → Cells.get? (received s b rest).rxBuf j = (l :: body)[j]? := by
  intro j hj
  have hget : Cells.get? (received s b rest).rxBuf j = if j = s.rxCnt then some b else Cells.get? s.rxBuf j :=
    Cells.get?_set ..
  rw [hget]
  by_cases hlast : j = s.rxCnt
  · rw [if_pos hlast, hlast, ← hb, List.getLast?_eq_getElem?, List.length_cons, Nat.add_sub_cancel, hlen]
  · rw [if_neg hlast]
    exact h.cells j (by omega)

/-- What a packet wholly received decodes to is what its completion runs, re-arming after it (R140, R143). -/
theorem completePacket_received_of_decode {s : State} {pkt rest : List Byte} {b : Byte} {i : Instr}
    (h : LastByteNext s pkt rest) (hb : pkt.getLast? = some b) (hcap : s.rxLen.toNat < Config.rxCap)
    (hdec : decode s.cfg pkt = .ok (i, [])) :
    completePacket (received s b rest) = andThen (exec i (received s b rest)) fun u => .next (rearm u) := by
  obtain ⟨l, body, rfl, hbody⟩ := h.whole
  obtain rfl : l = s.rxLen := Option.some.inj h.len
  have cells := get?_received_of_lastByteNext h hb (hbody.trans h.cnt.symm)
  rw [h.cnt] at cells
  rw [completePacket_decode (s := received s b rest) hbody hcap rfl h.crc cells,
    show (received s b rest).cfg = s.cfg from rfl, hdec]

/-- A packet that decodes has a length byte that fits the buffer (R73). -/
theorem rxLen_lt_rxCap_of_decode {s : State} {pkt rest : List Byte} {i : Instr} (h : LastByteNext s pkt rest)
    (hdec : decode s.cfg pkt = .ok (i, [])) : s.rxLen.toNat < Config.rxCap := by
  obtain ⟨l, code, p, b0, b1, b2, b3, rfl, -, hcap, -, -⟩ := decode_cases hdec
  obtain rfl : l = s.rxLen := Option.some.inj h.len
  exact hcap

/-! ## An Acknowledge too long for its length byte -/

/-- The handler of `GET_HELP` acknowledges with the ROM's command list (R161). -/
theorem exec_getHelp (p : List Byte) (s : State) :
    exec (.getHelp p) s = acknowledge s.cfg.codes.getHelp s.cfg.supportedCmds s := rfl

/-- The Response Encoder refuses a payload whose length does not fit `follow_len` (R80, log 15). -/
theorem sendAck_too_long {p : List Byte} (s : State) (h : 255 < p.length) :
    sendAck p s = .fault (.replyTooLong p.length) := by
  simp [sendAck, h]

/-- The common end of a handler, when its payload does not fit. -/
theorem acknowledge_too_long {p : List Byte} (code : Byte) (s : State) (h : 255 < p.length) :
    acknowledge code p s = .fault (.replyTooLong p.length) := by
  rw [acknowledge, sendAck_too_long s h, andThen_fault]

end Sys2Proof.Machine

namespace Sys2Proof.Proofs

open Sys2Proof.Machine

/-- Settles O23: the last byte makes the packet whole, and completing a whole packet runs what it decodes to. -/
theorem stepRunsDecodedPacket : Obligations.StepRunsDecodedPacket := by
  intro s s' pkt rest i b hturn hlast hb hdec
  have hcap : s'.rxLen.toNat < Config.rxCap := rxLen_lt_rxCap_of_decode hlast hdec
  calc step s
    _ = blockStep s' := step_of_blockTurn hturn
    _ = completePacket (received s' b rest) := blockStep_of_lastByteNext hlast hb hcap
    _ = andThen (exec i (received s' b rest)) fun u => .next (rearm u) :=
        completePacket_received_of_decode hlast hb hcap hdec

/-- Settles O33: `GET_HELP` acknowledges with the whole command list, which the Response Encoder cannot frame. -/
theorem overlongCommandSetStops : Obligations.OverlongCommandSetStops := by
  intro p s hlong
  rw [exec_getHelp, acknowledge_too_long _ _ hlong]

end Sys2Proof.Proofs
end

section
/-! PROOFS of the family `10_state.md`, the rules: what a step does, one equation for each case of it. -/

namespace Sys2Proof.Machine

/-! ## Whose turn it is -/

/-- An event other than the empty schedule is taken off it and runs (log 7). -/
theorem step_of_event {s : State} {e : EnvEvent} {rest : List EnvEvent} (h : s.env = e :: rest) :
    step s = takeEvent e { s with env := rest } := by
  rw [step, takeTurn, h]

/-- R190: the block's step before the boot decision. -/
theorem blockStep_of_reset {s : State} (hm : s.mode = .reset) : blockStep s = .next (stepBoot s) := by
  rw [blockStep, hm]

/-- R105: the block's step in the command loop with nothing to read. -/
theorem blockStep_of_empty {s : State} (hm : s.mode = .cmdLoop) (hrx : s.rx = []) : blockStep s = .next s := by
  simp only [blockStep, hm, rxPop_nil hrx]

/-- R62: the block's step in the command loop takes the oldest byte. -/
theorem blockStep_of_byte {s : State} {b : Byte} {rest : List Byte} (hm : s.mode = .cmdLoop) (hrx : s.rx = b :: rest) :
    blockStep s = readByte b { s with rx := rest } := by
  simp only [blockStep, hm, rxPop_cons hrx]

/-- R199, R200: the block's step in a terminal mode. -/
theorem blockStep_of_terminal {s : State} (hm : s.mode = .appJump ∨ s.mode = .halt) : blockStep s = .next s := by
  rcases hm with hm | hm <;> rw [blockStep, hm]

/-- With an empty schedule the block in the command loop takes the oldest byte. -/
theorem step_of_byte {s : State} {b : Byte} {rest : List Byte} (henv : s.env = []) (hm : s.mode = .cmdLoop)
    (hrx : s.rx = b :: rest) : step s = readByte b { s with rx := rest } := by
  rw [step_of_blockTurn (.inl ⟨henv, rfl⟩), blockStep_of_byte hm hrx]

/-! ## What the block takes from `rx` -/

/-- R201: the boot step takes nothing from `rx`. -/
theorem stepBoot_rx (s : State) : (stepBoot s).rx = s.rx := by
  rcases stepBoot_cases s with ⟨-, e⟩ | ⟨-, -, e⟩ | ⟨-, -, -, e⟩ | ⟨-, -, -, e⟩ <;> rw [e] <;> rfl

/-! ## What the reader and the completion do, one rule for each case -/

/-- A packet-level error pushes its reply, leaves its label, and the reader is armed again (R210, R218). -/
theorem rearm_raise {c : Cause} (s : State) (hc : c ≠ .init ∧ c ≠ .badSp) :
    rearm (raise c s) = rearm { s with tx := s.tx ++ policyReply (c.response s.cfg),
                                       trace := s.trace ++ [policyLabel c (c.response s.cfg)] } := by
  have hpacket : raise c s = raisePacket c s := by cases c <;> simp_all [raise]
  rw [hpacket, raisePacket_eq]

theorem runPacket_of_verified {f : Fields} {s : State} (hv : (verify f.covered f.hostCrc s).1 = true) :
    runPacket f s = exec (decodeCommand s.cfg f.code f.payload) { s with crcAcc := s.cfg.crcInit } := if_pos hv

theorem runPacket_of_not_verified {f : Fields} {s : State} (hv : (verify f.covered f.hostCrc s).1 = false) :
    runPacket f s = .next (raise .crc { s with crcAcc := s.cfg.crcInit }) := if_neg (ne_true_of_eq_false hv)

theorem completePacket_of_short {s : State} (hl : s.rxLen.toNat < Config.minLen) :
    completePacket s = .next (rearm (raise .short s)) := if_pos hl

theorem completePacket_of_error {s : State} {r : Fault} (hl : ¬ s.rxLen.toNat < Config.minLen)
    (hf : readFields s.cfg.byteOrder s.rxBuf s.rxLen.toNat = .error r) : completePacket s = .fault r := by
  rw [completePacket, if_neg hl, hf]

theorem completePacket_of_fields {s : State} {f : Fields} (hl : ¬ s.rxLen.toNat < Config.minLen)
    (hf : readFields s.cfg.byteOrder s.rxBuf s.rxLen.toNat = .ok f) :
    completePacket s = andThen (runPacket f s) fun s' => .next (rearm s') := by
  rw [completePacket, if_neg hl, hf]

/-- R101: the length byte 0 is a packet of its own. -/
theorem readByte_zero {s : State} (hf : s.fsm = .waitLen) :
    readByte 0 s = completePacket { s with rxLen := 0, rxBuf := Cells.set s.rxBuf 0 0, rxCnt := 1,
                                           trace := s.trace ++ [.len 0] } := by
  simp only [readByte, hf, if_pos (show (0 : Byte).toNat + 1 ≤ Config.rxCap by decide), stepRxLen,
    writeCell_inside (show 0 < Config.rxCap by decide), andThen_next, if_true, State.addTrace]

/-- R101: a length byte of a packet that fits the buffer. -/
theorem readByte_length {s : State} {l : Byte} (hf : s.fsm = .waitLen) (hcap : l.toNat + 1 ≤ Config.rxCap)
    (hl : l ≠ 0) :
    readByte l s = .next { s with rxLen := l, rxBuf := Cells.set s.rxBuf 0 l, rxCnt := 1, fsm := .recv,
                                  trace := s.trace ++ [.len l] } := by
  simp only [readByte, hf, if_pos hcap, stepRxLen, writeCell_inside (show 0 < Config.rxCap by decide), andThen_next,
    if_neg hl, State.addTrace]

/-- R102: a length byte of a packet that does not fit. -/
theorem readByte_oversize {s : State} {l : Byte} (hf : s.fsm = .waitLen) (hcap : Config.rxCap < l.toNat + 1) :
    readByte l s = .next { s with rxLen := l, drainRem := l.toNat, fsm := .drain, trace := s.trace ++ [.len l] } := by
  simp only [readByte, hf, if_neg (Nat.not_le.mpr hcap), stepRxLenOversize, State.addTrace]

/-- R103: a byte before the last. -/
theorem readByte_body {s : State} {b : Byte} (hf : s.fsm = .recv) (hin : s.rxCnt < Config.rxCap)
    (hcnt : s.rxCnt ≠ s.rxLen.toNat) : readByte b s = .next (received s b s.rx) := by
  have hbody : readByte b s = stepRxBody b s := by simp only [readByte, hf]
  rw [hbody, stepRxBody, writeCell_inside hin, andThen_next]
  exact if_neg (mt Nat.succ.inj hcnt)

/-- R103: the last byte. -/
theorem readByte_last {s : State} {b : Byte} (hf : s.fsm = .recv) (hin : s.rxCnt < Config.rxCap)
    (hcnt : s.rxCnt = s.rxLen.toNat) : readByte b s = completePacket (received s b s.rx) := by
  simp only [readByte, hf, stepRxBody_last b hin hcnt]

/-- R109: a byte that would go past the buffer (log 15). -/
theorem readByte_outside {s : State} {b : Byte} (hf : s.fsm = .recv) (hout : ¬ s.rxCnt < Config.rxCap) :
    readByte b s = .fault (.bufferIndex s.rxCnt) := by
  simp only [readByte, hf, stepRxBody, State.writeCell, if_neg hout, andThen_fault]

/-- R104: a discarded byte before the last. -/
theorem readByte_discard {s : State} {b : Byte} (hf : s.fsm = .drain) (hrem : 1 < s.drainRem) :
    readByte b s = .next { s with drainRem := s.drainRem - 1, trace := s.trace ++ [.byte] } := by
  have hmore : s.drainRem - 1 ≠ 0 := by omega
  simp only [readByte, hf, stepRxDrain, if_neg (show s.drainRem ≠ 0 by omega), State.addTrace, if_neg hmore]

/-- R104: the last discarded byte. -/
theorem readByte_discard_last {s : State} {b : Byte} (hf : s.fsm = .drain) (hrem : s.drainRem = 1) :
    readByte b s = .next (rearm (raise .oversize { s with drainRem := 0, trace := s.trace ++ [.byte] })) := by
  simp [readByte, hf, stepRxDrain, hrem, State.addTrace]

/-- R104: with nothing left to discard the step has no meaning (log 15). -/
theorem readByte_underflow {s : State} {b : Byte} (hf : s.fsm = .drain) (hrem : s.drainRem = 0) :
    readByte b s = .fault .drainUnderflow := by
  simp only [readByte, hf, stepRxDrain, if_pos hrem]

end Sys2Proof.Machine
end

section
/-! PROOFS of the family `10_state.md`, the invariants of R44: what a step writes, and that it keeps them. -/

namespace Sys2Proof.Machine

/-! ## The invariants of R44, one lemma for each side of the boot decision -/

/-- I4 of R44: a packet that fits the buffer is partly received. -/
def Receiving (s : State) : Prop :=
  1 ≤ s.rxLen.toNat ∧ s.rxLen.toNat + 1 ≤ Config.rxCap ∧ 1 ≤ s.rxCnt ∧ s.rxCnt ≤ s.rxLen.toNat ∧
  s.drainRem = 0 ∧ Cells.get? s.rxBuf 0 = some s.rxLen ∧
  (∀ i, i < s.rxCnt → (Cells.get? s.rxBuf i).isSome) ∧ (∀ i, s.rxCnt ≤ i → Cells.get? s.rxBuf i = none)

/-- I5 of R44: an oversize packet is partly discarded. -/
def Draining (s : State) : Prop :=
  Config.rxCap < s.rxLen.toNat + 1 ∧ 1 ≤ s.drainRem ∧ s.drainRem ≤ s.rxLen.toNat ∧ s.rxCnt = 0 ∧
  ∀ i, Cells.get? s.rxBuf i = none

/-- What R44 says of the reader's registers in the command loop, by the state of the reader. -/
def ReaderInv (s : State) : Prop :=
  match s.fsm with
  | .waitLen => Idle s
  | .recv => Receiving s
  | .drain => Draining s

/-- R30: no hand-off has happened, so no output of it holds a value. -/
def HandOffClear (s : State) : Prop := s.hoValid = false ∧ s.hoSp = none ∧ s.hoEntry = none

/-- I7 of R44 on a trace: no label of a reply since the last reset. -/
def Quiet (tr : List Event) : Prop := ∀ e ∈ sinceReset tr, isReplyLabel e = false

/-- I6 of R44 and R30: with no hand-off the three outputs are clear. -/
theorem handOffClear_of_inv {s : State} (h : Inv s) (hm : s.mode ≠ .appJump) : HandOffClear s := by
  have hv : s.hoValid = false := by simpa using mt h.handOff.mp hm
  have hsp : s.hoSp = none := by simpa [hv] using h.handOffValues.1
  have hen : s.hoEntry = none := by simpa [hv] using h.handOffValues.2
  exact ⟨hv, hsp, hen⟩

theorem readerInv_of_inv {s : State} (h : Inv s) (hm : s.mode = .cmdLoop) : ReaderInv s := by
  unfold ReaderInv
  split
  · exact h.waiting hm ‹_›
  · exact h.receiving hm ‹_›
  · exact h.draining hm ‹_›

/-- In the command loop R44 asks for a fresh accumulator, no hand-off, and its row for the reader. -/
theorem inv_of_cmdLoop {s : State} (hm : s.mode = .cmdLoop) (hcrc : s.crcAcc = s.cfg.crcInit)
    (hho : HandOffClear s) (hr : ReaderInv s) : Inv s := by
  obtain ⟨hv, hsp, hen⟩ := hho
  refine ⟨hcrc, absurd hm, fun _ hf => ?_, fun _ hf => ?_, fun _ hf => ?_, by simp [hv, hm],
    by simp [hv, hsp, hen], absurd hm⟩
  all_goals rwa [ReaderInv, hf] at hr

/-- Before the boot decision and after a halt R44 asks for an idle reader, no hand-off, and a quiet trace. -/
theorem inv_of_no_handOff {s : State} (hm : s.mode = .reset ∨ s.mode = .halt) (hcrc : s.crcAcc = s.cfg.crcInit)
    (hho : HandOffClear s) (hidle : Idle s) (hq : Quiet s.trace) : Inv s := by
  obtain ⟨hv, hsp, hen⟩ := hho
  have hloop : s.mode ≠ .cmdLoop := by rcases hm with hm | hm <;> simp [hm]
  have happ : s.mode ≠ .appJump := by rcases hm with hm | hm <;> simp [hm]
  exact ⟨hcrc, fun _ => hidle, fun h => absurd h hloop, fun h => absurd h hloop, fun h => absurd h hloop,
    by simp [hv, happ], by simp [hv, hsp, hen], fun _ => hq⟩

/-- After the hand-off R44 asks for an idle reader, both hand-off outputs, and a quiet trace. -/
theorem inv_of_appJump {s : State} (hm : s.mode = .appJump) (hcrc : s.crcAcc = s.cfg.crcInit)
    (hv : s.hoValid = true) (hsp : s.hoSp.isSome) (hen : s.hoEntry.isSome) (hidle : Idle s) (hq : Quiet s.trace) :
    Inv s := by
  have hloop : s.mode ≠ .cmdLoop := by simp [hm]
  exact ⟨hcrc, fun _ => hidle, fun h => absurd h hloop, fun h => absurd h hloop, fun h => absurd h hloop,
    by simp [hv, hm], by simp [hv, hsp, hen], fun _ => hq⟩

/-- R44 speaks of no stream, no level, no memory and no schedule. -/
theorem inv_ports {s : State} (h : Inv s) (rx : List Byte) (initOk bootSel : Bool) (env : List EnvEvent) :
    Inv { s with rx := rx, initOk := initOk, bootSel := bootSel, env := env } :=
  ⟨h.crc, h.outside, h.waiting, h.receiving, h.draining, h.handOff, h.handOffValues, h.quiet⟩

theorem inv_of_blockTurn {s s' : State} (hturn : BlockTurn s s') (h : Inv s) : Inv s' := by
  rcases hturn with ⟨-, rfl⟩ | ⟨rest, -, rfl⟩
  · exact h
  · exact inv_ports h s.rx s.initOk s.bootSel rest

/-! ## The trace since the last reset -/

/-- A reset begins a new trace for I7. -/
theorem quiet_append_reset (tr : List Event) : Quiet (tr ++ [.reset]) := by
  simp [Quiet, sinceReset]

theorem quiet_append {tr : List Event} {e : Event} (h : Quiet tr) (he : isReplyLabel e = false) :
    Quiet (tr ++ [e]) := by
  intro e' he'
  have hcons : e' ∈ (e :: tr.reverse).takeWhile (· ≠ .reset) := by simpa [sinceReset] using he'
  by_cases hreset : e = .reset
  · simp [hreset] at hcons
  · rw [List.takeWhile_cons_of_pos (by simpa using hreset), List.mem_cons] at hcons
    rcases hcons with rfl | hold
    · exact he
    · exact h e' hold

/-! ## What the block's steps in the command loop write -/

/-- `t` differs from `s` at most in what the reader, the completion and the commands write: the reader's registers, the
accumulator, `tx`, the trace, and the record of reads. -/
def ReaderWrites (s t : State) : Prop :=
  t = { s with fsm := t.fsm, rxBuf := t.rxBuf, rxLen := t.rxLen, rxCnt := t.rxCnt, drainRem := t.drainRem,
               crcAcc := t.crcAcc, tx := t.tx, trace := t.trace, reads := t.reads }

/-- All that a completion does, whatever its outcome: it writes `tx`, the trace and the record of reads, arms the reader
again, and leaves the accumulator as it was or fresh. -/
theorem completePacket_rearms {s t : State} (h : completePacket s = .next t) :
    ∃ tx trace reads acc, (acc = s.crcAcc ∨ acc = s.cfg.crcInit) ∧
      t = rearm { s with tx := tx, trace := trace, reads := reads, crcAcc := acc } := by
  rcases completePacket_cases h with ⟨-, rfl⟩ | ⟨-, f, -, ⟨-, rfl⟩ | ⟨-, u, hu, rfl⟩⟩
  · exact ⟨_, _, _, _, .inl rfl, rearm_raise s (by simp)⟩
  · exact ⟨_, _, _, _, .inr rfl, rearm_raise _ (by simp)⟩
  · exact ⟨_, _, _, _, .inr rfl, congrArg rearm (exec_cases hu)⟩

theorem completePacket_readerWrites {s t : State} (h : completePacket s = .next t) : ReaderWrites s t := by
  obtain ⟨tx, trace, reads, acc, -, rfl⟩ := completePacket_rearms h
  rfl

theorem completePacket_idle {s t : State} (h : completePacket s = .next t) : Idle t := by
  obtain ⟨tx, trace, reads, acc, -, rfl⟩ := completePacket_rearms h
  exact ⟨rfl, rfl, rfl, fun _ => rfl⟩

theorem completePacket_crcAcc {s t : State} (h : completePacket s = .next t) (hc : s.crcAcc = s.cfg.crcInit) :
    t.crcAcc = s.cfg.crcInit := by
  obtain ⟨tx, trace, reads, acc, rfl | rfl, rfl⟩ := completePacket_rearms h
  · exact hc
  · rfl

/-- The reader leaves the mode, the parameters, the hand-off outputs, `rx`, the levels, `MEM` and the schedule. -/
theorem readByte_readerWrites {b : Byte} {s t : State} (h : readByte b s = .next t) : ReaderWrites s t := by
  rcases readByte_cases h with ⟨-, -, -, rfl⟩ | ⟨-, -, hc⟩ | ⟨-, -, rfl⟩ | ⟨-, -, -, rfl⟩ | ⟨-, -, -, hc⟩ |
    ⟨-, -, rfl⟩ | ⟨-, -, rfl⟩
  · rfl
  · exact (completePacket_readerWrites hc :)
  · rfl
  · rfl
  · exact (completePacket_readerWrites hc :)
  · rfl
  · rw [rearm_raise _ (by simp)]; rfl

theorem readByte_crcAcc {b : Byte} {s t : State} (h : readByte b s = .next t) (hc : s.crcAcc = s.cfg.crcInit) :
    t.crcAcc = s.cfg.crcInit := by
  rcases readByte_cases h with ⟨-, -, -, rfl⟩ | ⟨-, -, hp⟩ | ⟨-, -, rfl⟩ | ⟨-, -, -, rfl⟩ | ⟨-, -, -, hp⟩ |
    ⟨-, -, rfl⟩ | ⟨-, -, rfl⟩
  · exact hc
  · exact (completePacket_crcAcc hp hc :)
  · exact hc
  · exact hc
  · exact (completePacket_crcAcc hp hc :)
  · exact hc
  · rw [rearm_raise _ (by simp)]; exact hc

/-! ## The reader keeps its row of R44 -/

theorem receiving_of_length {s : State} {b : Byte} (h : Idle s) (hb : b ≠ 0) (hcap : b.toNat + 1 ≤ Config.rxCap)
    (tr : List Event) :
    Receiving { s with rxLen := b, rxBuf := Cells.set s.rxBuf 0 b, rxCnt := 1, fsm := .recv, trace := tr } := by
  obtain ⟨-, -, hdrain, hempty⟩ := h
  have hpos : 1 ≤ b.toNat := by
    have hne : b.toNat ≠ 0 := fun h0 => hb (BitVec.eq_of_toNat_eq h0)
    omega
  refine ⟨hpos, hcap, Nat.le_refl 1, hpos, hdrain, Cells.get?_set_self .., fun i hi => ?_, fun i hi => ?_⟩
  · obtain rfl : i = 0 := Nat.lt_one_iff.mp hi
    rw [Cells.get?_set_self, Option.isSome_some]
  · rw [Cells.get?_set_ne _ _ _ _ (Nat.ne_of_gt hi), hempty]

theorem receiving_received {s : State} (b : Byte) (rest : List Byte) (h : Receiving s)
    (hcnt : s.rxCnt ≠ s.rxLen.toNat) : Receiving (received s b rest) := by
  obtain ⟨hlen, hcap, hone, hle, hdrain, hzero, hheld, hfree⟩ := h
  have hget : ∀ i, Cells.get? (received s b rest).rxBuf i = if i = s.rxCnt then some b else Cells.get? s.rxBuf i :=
    fun i => Cells.get?_set ..
  have hnext : (received s b rest).rxCnt = s.rxCnt + 1 := rfl
  refine ⟨hlen, hcap, Nat.le_add_left .., Nat.lt_of_le_of_ne hle hcnt, hdrain, ?_, fun i hi => ?_, fun i hi => ?_⟩
  · rw [hget, if_neg (by omega), hzero]; rfl
  · rw [hget]
    split
    · rfl
    · exact hheld i (by omega)
  · rw [hget, if_neg (by omega), hfree i (by omega)]

theorem draining_of_length {s : State} {b : Byte} (h : Idle s) (hb : Config.rxCap < b.toNat + 1) (tr : List Event) :
    Draining { s with rxLen := b, drainRem := b.toNat, fsm := .drain, trace := tr } := by
  obtain ⟨-, hcnt, -, hempty⟩ := h
  have hpos : 1 ≤ b.toNat := by simp only [Config.rxCap] at hb; omega
  exact ⟨hb, hpos, Nat.le_refl _, hcnt, hempty⟩

theorem draining_discard {s : State} (h : Draining s) (hrem : 1 < s.drainRem) (tr : List Event) :
    Draining { s with drainRem := s.drainRem - 1, trace := tr } := by
  obtain ⟨hlen, -, hle, hcnt, hempty⟩ := h
  exact ⟨hlen, Nat.le_sub_one_of_lt hrem, Nat.le_trans (Nat.sub_le ..) hle, hcnt, hempty⟩

/-- An idle reader is what R44 asks for in `F_WAIT_LEN`. -/
theorem readerInv_of_idle {s : State} (h : Idle s) : ReaderInv s := by
  rwa [ReaderInv, h.1]

/-- Every byte taken from `rx` leaves the reader in the row of R44 for its new state. -/
theorem readByte_readerInv {b : Byte} {s t : State} (hr : ReaderInv s) (h : readByte b s = .next t) : ReaderInv t := by
  unfold ReaderInv at hr
  rcases readByte_cases h with ⟨hf, hcap, hb, rfl⟩ | ⟨-, -, hp⟩ | ⟨hf, hcap, rfl⟩ | ⟨hf, -, hcnt, rfl⟩ |
    ⟨-, -, -, hp⟩ | ⟨hf, hrem, rfl⟩ | ⟨-, -, rfl⟩
  · rw [hf] at hr
    exact receiving_of_length hr hb hcap _
  · exact readerInv_of_idle (completePacket_idle hp)
  · rw [hf] at hr
    exact draining_of_length hr hcap _
  · rw [hf] at hr
    rw [ReaderInv, show (received s b s.rx).fsm = .recv from hf]
    exact receiving_received b s.rx hr hcnt
  · exact readerInv_of_idle (completePacket_idle hp)
  · rw [hf] at hr
    have hd : Draining { s with drainRem := s.drainRem - 1, trace := s.trace ++ [.byte] } := draining_discard hr hrem _
    rwa [ReaderInv, show State.fsm { s with drainRem := s.drainRem - 1, trace := s.trace ++ [.byte] } = .drain from hf]
  · exact readerInv_of_idle ⟨rfl, rfl, rfl, fun _ => rfl⟩

/-! ## Every step keeps the invariants -/

theorem inv_readByte {b : Byte} {s t : State} (h : Inv s) (hm : s.mode = .cmdLoop) (hb : readByte b s = .next t) :
    Inv t := by
  have hw : ReaderWrites s t := readByte_readerWrites hb
  have hr : ReaderInv t := readByte_readerInv (readerInv_of_inv h hm) hb
  have hc : t.crcAcc = s.cfg.crcInit := readByte_crcAcc hb h.crc
  obtain ⟨hv, hsp, hen⟩ := handOffClear_of_inv h (by simp [hm])
  refine inv_of_cmdLoop ?_ ?_ ⟨?_, ?_, ?_⟩ hr
  · rw [hw]; exact hm
  · rw [hc, hw]
  · rw [hw]; exact hv
  · rw [hw]; exact hsp
  · rw [hw]; exact hen

/-- R240: the block's registers at reset meet R44, whatever the state before it. -/
theorem inv_stepReset (l : Launch) (s : State) : Inv (stepReset l s) :=
  inv_of_no_handOff (.inl rfl) rfl ⟨rfl, rfl, rfl⟩ ⟨rfl, rfl, rfl, fun _ => rfl⟩ (quiet_append_reset s.trace)

/-- R106: the time-out comes only in the command loop and leaves the reader idle. -/
theorem inv_stepRxTimeout {s : State} (h : Inv s) : Inv (stepRxTimeout s) := by
  unfold stepRxTimeout
  split
  next henabled =>
    obtain ⟨-, hm, -⟩ := henabled
    have hho : HandOffClear s := handOffClear_of_inv h (by simp [hm])
    rw [rearm_raise _ (by simp)]
    exact inv_of_cmdLoop hm h.crc hho (readerInv_of_idle ⟨rfl, rfl, rfl, fun _ => rfl⟩)
  next => exact h

/-- Each of the four outcomes of the boot step (R192) meets R44. -/
theorem inv_stepBoot {s : State} (h : Inv s) (hm : s.mode = .reset) : Inv (stepBoot s) := by
  have hidle : Idle s := h.outside (by simp [hm])
  have hquiet : Quiet s.trace := h.quiet (by simp [hm])
  have hho : HandOffClear s := handOffClear_of_inv h (by simp [hm])
  rcases stepBoot_cases s with ⟨-, e⟩ | ⟨-, -, e⟩ | ⟨-, -, -, e⟩ | ⟨-, -, -, e⟩ <;> rw [e]
  · exact inv_of_no_handOff (.inr rfl) h.crc hho hidle (quiet_append hquiet rfl)
  · exact inv_of_cmdLoop rfl h.crc hho (readerInv_of_idle ⟨rfl, hidle.2⟩)
  · exact inv_of_no_handOff (.inr rfl) h.crc hho hidle (quiet_append hquiet rfl)
  · exact inv_of_appJump rfl h.crc rfl rfl rfl hidle (quiet_append hquiet rfl)

theorem inv_blockStep {s t : State} (h : Inv s) (hs : blockStep s = .next t) : Inv t := by
  rcases blockStep_cases hs with ⟨hm, rfl⟩ | ⟨-, -, rfl⟩ | ⟨hm, b, rest, -, hb⟩ | ⟨-, rfl⟩
  · exact inv_stepBoot h hm
  · exact h
  · exact inv_readByte (inv_ports h rest s.initOk s.bootSel s.env) hm hb
  · exact h

end Sys2Proof.Machine
end

section
/-! PROOFS of the family `10_state.md`, the trace: under an older trace a step does the same and appends the same labels
(R36). -/

namespace Sys2Proof.Machine

/-! ## No step reads the trace -/

/-- The same state with an older trace before its own. -/
def State.prependTrace (pre : List Event) (s : State) : State := { s with trace := pre ++ s.trace }

theorem State.addTrace_prependTrace (pre : List Event) (s : State) (e : Event) :
    (s.prependTrace pre).addTrace e = (s.addTrace e).prependTrace pre := by
  simp [State.addTrace, State.prependTrace]

/-- A part of a step that does the same under every older trace, and leaves that trace before its own labels. -/
def TraceBlind (f : State → Out) : Prop :=
  ∀ pre s, f (s.prependTrace pre) = andThen (f s) fun t => .next (t.prependTrace pre)

/-- Of two parts in sequence neither sees the older trace. -/
theorem andThen_prependTrace {f : State → Out} (hf : TraceBlind f) (pre : List Event) (o : Out) :
    andThen (andThen o fun t => .next (t.prependTrace pre)) f
      = andThen (andThen o f) fun t => .next (t.prependTrace pre) := by
  cases o with
  | next t => exact hf pre t
  | fault r => rfl
  | refused r => rfl

theorem raisePacket_prependTrace (c : Cause) (pre : List Event) (s : State) :
    raisePacket c (s.prependTrace pre) = (raisePacket c s).prependTrace pre := by
  simp [raisePacket_eq, State.prependTrace]

theorem raiseHalt_prependTrace (c : Cause) (pre : List Event) (s : State) :
    raiseHalt c (s.prependTrace pre) = (raiseHalt c s).prependTrace pre :=
  State.addTrace_prependTrace pre { s with mode := .halt } (.halt c)

theorem raise_prependTrace (c : Cause) (pre : List Event) (s : State) :
    raise c (s.prependTrace pre) = (raise c s).prependTrace pre := by
  cases c <;> simp [raise, raisePacket_prependTrace, raiseHalt_prependTrace]

theorem rearm_raise_prependTrace (c : Cause) (pre : List Event) (s : State) :
    rearm (raise c (s.prependTrace pre)) = (rearm (raise c s)).prependTrace pre :=
  congrArg rearm (raise_prependTrace c pre s)

theorem acknowledge_traceBlind (code : Byte) (p : List Byte) : TraceBlind (acknowledge code p) := by
  intro pre s
  by_cases hp : p.length ≤ 255
  · simp [acknowledge_fits _ _ hp, State.prependTrace]
  · rw [acknowledge_too_long _ _ (by omega), acknowledge_too_long _ _ (by omega), andThen_fault]

theorem raise_traceBlind (c : Cause) : TraceBlind fun s => .next (raise c s) :=
  fun pre s => congrArg Host.Outcome.next (raise_prependTrace c pre s)

theorem exec_traceBlind (i : Instr) : TraceBlind (exec i) := by
  intro pre s
  cases i with
  | getVer p => exact acknowledge_traceBlind s.cfg.codes.getVer [s.cfg.blVersion] pre s
  | getHelp p => exact acknowledge_traceBlind s.cfg.codes.getHelp s.cfg.supportedCmds pre s
  | getCid p => exact acknowledge_traceBlind s.cfg.codes.getCid _ pre (s.memRead s.cfg.chipIdAddr).2
  | getRdp p =>
    exact acknowledge_traceBlind s.cfg.codes.getRdp
      [byteOf (Memory.word s.mem s.cfg.optionByteAddr) s.cfg.rdpByteIndex.val] pre (s.memRead s.cfg.optionByteAddr).2
  | unknown code p => exact raise_traceBlind .unknown pre s
  | _ p => exact raise_traceBlind .reserved pre s

theorem runPacket_traceBlind (f : Fields) : TraceBlind (runPacket f) := by
  intro pre s
  cases hv : (verify f.covered f.hostCrc s).1 with
  | true =>
    rw [runPacket_of_verified hv, runPacket_of_verified (s := s.prependTrace pre) hv]
    exact exec_traceBlind _ pre { s with crcAcc := s.cfg.crcInit }
  | false =>
    rw [runPacket_of_not_verified hv, runPacket_of_not_verified (s := s.prependTrace pre) hv]
    exact raise_traceBlind .crc pre { s with crcAcc := s.cfg.crcInit }

theorem rearm_traceBlind : TraceBlind fun s => .next (rearm s) := fun _ _ => rfl

theorem completePacket_traceBlind : TraceBlind completePacket := by
  intro pre s
  by_cases hl : s.rxLen.toNat < Config.minLen
  · rw [completePacket_of_short hl, completePacket_of_short (s := s.prependTrace pre) hl, rearm_raise_prependTrace,
      andThen_next]
  · cases hf : readFields s.cfg.byteOrder s.rxBuf s.rxLen.toNat with
    | error r =>
      rw [completePacket_of_error hl hf, completePacket_of_error (s := s.prependTrace pre) hl hf, andThen_fault]
    | ok f =>
      rw [completePacket_of_fields hl hf, completePacket_of_fields (s := s.prependTrace pre) hl hf,
        runPacket_traceBlind, andThen_prependTrace rearm_traceBlind]

theorem received_prependTrace (pre : List Event) (s : State) (b : Byte) (rest : List Byte) :
    received (s.prependTrace pre) b rest = (received s b rest).prependTrace pre := by
  simp [received, State.prependTrace]

theorem readByte_traceBlind (b : Byte) : TraceBlind (readByte b) := by
  intro pre s
  cases hf : s.fsm with
  | waitLen =>
    by_cases hcap : b.toNat + 1 ≤ Config.rxCap
    · by_cases hb : b = 0
      · subst hb
        rw [readByte_zero hf, readByte_zero (s := s.prependTrace pre) hf, ← completePacket_traceBlind]
        simp [State.prependTrace]
      · rw [readByte_length hf hcap hb, readByte_length (s := s.prependTrace pre) hf hcap hb]
        simp [State.prependTrace]
    · rw [readByte_oversize hf (by omega), readByte_oversize (s := s.prependTrace pre) hf (by omega)]
      simp [State.prependTrace]
  | recv =>
    by_cases hin : s.rxCnt < Config.rxCap
    · by_cases hcnt : s.rxCnt = s.rxLen.toNat
      · rw [readByte_last hf hin hcnt, readByte_last (s := s.prependTrace pre) hf hin hcnt, received_prependTrace,
          completePacket_traceBlind]
        rfl
      · rw [readByte_body hf hin hcnt, readByte_body (s := s.prependTrace pre) hf hin hcnt, received_prependTrace]
        rfl
    · rw [readByte_outside hf hin, readByte_outside (s := s.prependTrace pre) hf hin]
      rfl
  | drain =>
    rcases Nat.lt_trichotomy s.drainRem 1 with hrem | hrem | hrem
    · have h0 : s.drainRem = 0 := Nat.lt_one_iff.mp hrem
      rw [readByte_underflow hf h0, readByte_underflow (s := s.prependTrace pre) hf h0]
      rfl
    · rw [readByte_discard_last hf hrem, readByte_discard_last (s := s.prependTrace pre) hf hrem, andThen_next,
        ← rearm_raise_prependTrace]
      simp [State.prependTrace]
    · rw [readByte_discard hf hrem, readByte_discard (s := s.prependTrace pre) hf hrem]
      simp [State.prependTrace]

theorem stepBoot_prependTrace (pre : List Event) (s : State) :
    stepBoot (s.prependTrace pre) = (stepBoot s).prependTrace pre := by
  rcases stepBoot_cases s with ⟨hi, e⟩ | ⟨hi, hb, e⟩ | ⟨hi, hb, hv, e⟩ | ⟨hi, hb, hv, e⟩ <;> rw [e]
  · simp [stepBoot, hi, State.prependTrace, raise, raiseHalt, State.addTrace]
  · simp [stepBoot, hi, hb, State.prependTrace, State.addTrace]
  · simp [stepBoot, hi, hb, hv, State.prependTrace, State.memRead, raise, raiseHalt, State.addTrace]
  · simp [stepBoot, hi, hb, hv, State.prependTrace, State.memRead, handOff, State.addTrace]

theorem blockStep_traceBlind : TraceBlind blockStep := by
  intro pre s
  cases hm : s.mode with
  | reset =>
    rw [blockStep_of_reset hm, blockStep_of_reset (s := s.prependTrace pre) hm, stepBoot_prependTrace, andThen_next]
  | cmdLoop =>
    cases hrx : s.rx with
    | nil =>
      rw [blockStep_of_empty hm hrx, blockStep_of_empty (s := s.prependTrace pre) hm hrx, andThen_next]
    | cons b rest =>
      rw [blockStep_of_byte hm hrx, blockStep_of_byte (s := s.prependTrace pre) hm hrx]
      exact readByte_traceBlind b pre { s with rx := rest }
  | appJump =>
    rw [blockStep_of_terminal (.inl hm), blockStep_of_terminal (s := s.prependTrace pre) (.inl hm), andThen_next]
  | halt =>
    rw [blockStep_of_terminal (.inr hm), blockStep_of_terminal (s := s.prependTrace pre) (.inr hm), andThen_next]

theorem stepRxTimeout_prependTrace (pre : List Event) (s : State) :
    stepRxTimeout (s.prependTrace pre) = (stepRxTimeout s).prependTrace pre := by
  simp only [stepRxTimeout, apply_ite (State.prependTrace pre), rearm_raise_prependTrace]
  rfl

theorem takeEvent_traceBlind (e : EnvEvent) : TraceBlind (takeEvent e) := by
  intro pre s
  cases e with
  | block => exact blockStep_traceBlind pre s
  | rst l => simp [takeEvent, stepReset, applyLaunch, resetBlock, State.addTrace, State.prependTrace]
  | rxTimeout => exact congrArg Host.Outcome.next (stepRxTimeout_prependTrace pre s)
  | hostSend b => rfl
  | setBootSel v => rfl
  | setInitOk v => rfl

theorem step_traceBlind : TraceBlind step := by
  intro pre s
  cases he : s.env with
  | nil =>
    rw [step_of_blockTurn (.inl ⟨he, rfl⟩), step_of_blockTurn (s := s.prependTrace pre) (.inl ⟨he, rfl⟩),
      blockStep_traceBlind]
  | cons e rest =>
    rw [step_of_event he, step_of_event (s := s.prependTrace pre) he]
    exact takeEvent_traceBlind e pre { s with env := rest }

end Sys2Proof.Machine
end

section
/-! PROOFS of the family `10_state.md`, a whole packet: its bytes are taken one a step, and the last has it answered
(R101 to R104, R147). -/

namespace Sys2Proof.Machine

/-! ## A whole packet, from its length byte to its reply -/

/-- `s` once the packet `pkt` has been answered: its reply on `tx`, its reads and its label recorded, the reader armed
again (R147, R107). -/
def answered (s : State) (pkt : List Byte) : State :=
  rearm { s with
    tx := s.tx ++ packetReply s.cfg s.mem pkt
    reads := s.reads ++ packetReads s.cfg pkt
    trace := s.trace ++ [packetLabel s.cfg pkt] }

/-- Each rejection of the decoder is answered by raising its cause (R78, R210). -/
theorem rearm_raise_of_rejected {s : State} {pkt : List Byte} {c : Cause} {e : DecodeError}
    (hdec : decode s.cfg pkt = .error e)
    (hc : (c, e) ∈ [(Cause.oversize, DecodeError.oversize), (.short, .short), (.crc, .badChecksum)]) :
    rearm (raise c s) = answered s pkt := by
  simp only [List.mem_cons, Prod.mk.injEq, List.not_mem_nil, or_false] at hc
  rcases hc with ⟨rfl, rfl⟩ | ⟨rfl, rfl⟩ | ⟨rfl, rfl⟩ <;>
    simp [rearm_raise, answered, packetReply, packetReads, packetLabel, hdec, Cause.response, policyReply, policyLabel]

/-- A command that the decoder reads is answered by running it (R143). -/
theorem exec_of_decoded {s : State} {pkt rest : List Byte} {i : Instr} (hdec : decode s.cfg pkt = .ok (i, rest))
    (hsup : s.cfg.supportedCmds.length ≤ 255) :
    (andThen (exec i s) fun u => .next (rearm u)) = .next (answered s pkt) := by
  obtain ⟨u, hu⟩ := exec_next i s hsup
  rw [hu, andThen_next, exec_cases hu]
  simp only [answered, packetReply, packetReads, packetLabel, hdec]

/-- A packet whose bytes are all there and fit the buffer can be rejected for two reasons only (R78). -/
theorem rejected_of_whole {c : Config} {l : Byte} {body : List Byte} {e : DecodeError} (hb : body.length = l.toNat)
    (hcap : l.toNat + 1 ≤ Config.rxCap) (h : decode c (l :: body) = .error e) : e = .short ∨ e = .badChecksum := by
  by_cases h5 : l.toNat < Config.minLen
  · rw [decode_cons, if_neg (by omega), if_neg (by omega), if_pos h5] at h
    exact .inl (Except.error.inj h).symm
  · have hlen : Config.minLen ≤ l.toNat := Nat.le_of_not_lt h5
    obtain ⟨code, p, b0, b1, b2, b3, rfl, -⟩ := fields_of_length (hb ▸ hlen)
    rw [decode_whole hb hcap hlen, decodeBody_fields] at h
    by_cases hcrc : word32 c.byteOrder b0 b1 b2 b3 = crc32w c (l :: code :: p)
    · rw [if_pos hcrc] at h
      cases h
    · rw [if_neg hcrc] at h
      exact .inr (Except.error.inj h).symm

/-- The completion procedure answers the packet in the buffer (R140). -/
theorem completePacket_answers {s : State} {l : Byte} {body : List Byte} (hb : body.length = l.toNat)
    (hcap : l.toNat + 1 ≤ Config.rxCap) (hr : s.rxLen = l) (hc : s.crcAcc = s.cfg.crcInit)
    (hsup : s.cfg.supportedCmds.length ≤ 255)
    (hcells : ∀ j, j < l.toNat + 1 → Cells.get? s.rxBuf j = (l :: body)[j]?) :
    completePacket s = .next (answered s (l :: body)) := by
  rw [completePacket_decode hb hcap hr hc hcells]
  cases hdec : decode s.cfg (l :: body) with
  | ok r => exact exec_of_decoded hdec hsup
  | error e =>
    rcases rejected_of_whole hb hcap hdec with rfl | rfl
    · exact congrArg _ (rearm_raise_of_rejected hdec (by simp))
    · exact congrArg _ (rearm_raise_of_rejected hdec (by simp))

/-- `s` with the bytes `bs` of a packet taken from `rx`, of which `rest` is left, and their labels left (R103, R104). -/
def taken (s : State) (bs rest : List Byte) : State :=
  { s with rx := rest, trace := s.trace ++ List.replicate bs.length .byte }

theorem taken_nil {s : State} {rest : List Byte} (h : s.rx = rest) : taken s [] rest = s := by
  simp [taken, ← h]

/-- In `s`, the bytes `got` of the packet `got ++ todo` are received, and `todo` is next on `rx`, `rest` after it. -/
structure MidPacket (s : State) (got todo rest : List Byte) : Prop where
  turn : s.env = []
  loop : s.mode = .cmdLoop
  recv : s.fsm = .recv
  crc : s.crcAcc = s.cfg.crcInit
  fits : s.rxLen.toNat + 1 ≤ Config.rxCap
  len : got.head? = some s.rxLen
  cnt : s.rxCnt = got.length
  whole : got.length + todo.length = s.rxLen.toNat + 1
  next : s.rx = todo ++ rest
  cells : ∀ i, i < got.length → Cells.get? s.rxBuf i = got[i]?

/-- Storing the next byte of a packet extends what the cells hold by it. -/
theorem get?_received_append {s : State} {got : List Byte} (b : Byte) (rest : List Byte) (hcnt : s.rxCnt = got.length)
    (hcells : ∀ i, i < got.length → Cells.get? s.rxBuf i = got[i]?) :
    ∀ i, i < (got ++ [b]).length → Cells.get? (received s b rest).rxBuf i = (got ++ [b])[i]? := by
  intro i hi
  have hget : Cells.get? (received s b rest).rxBuf i = if i = s.rxCnt then some b else Cells.get? s.rxBuf i :=
    Cells.get?_set ..
  rw [hget, hcnt]
  by_cases hlast : i = got.length
  · rw [if_pos hlast, hlast, List.getElem?_concat_length]
  · have hlt : i < got.length := by
      rw [List.length_append, List.length_singleton] at hi
      omega
    rw [if_neg hlast, hcells i hlt, List.getElem?_append_left hlt]

/-- The last byte of a packet that fits the buffer has it answered (R103, R140). -/
theorem step_midPacket_last {s : State} {got rest : List Byte} {b : Byte} (h : MidPacket s got [b] rest)
    (hsup : s.cfg.supportedCmds.length ≤ 255) : step s = .next (answered (received s b rest) (got ++ [b])) := by
  obtain ⟨l, body, rfl⟩ : ∃ l body, got = l :: body := List.exists_cons_of_ne_nil (by rintro rfl; cases h.len)
  obtain rfl : l = s.rxLen := Option.some.inj h.len
  have hcnt : s.rxCnt = s.rxLen.toNat := h.cnt.trans (Nat.succ.inj h.whole)
  have hin : s.rxCnt < Config.rxCap := hcnt ▸ h.fits
  have hbody : (body ++ [b]).length = s.rxLen.toNat := by
    rw [List.length_append, ← hcnt, h.cnt]; rfl
  calc step s
    _ = readByte b { s with rx := rest } := step_of_byte h.turn h.loop h.next
    _ = completePacket (received s b rest) := readByte_last h.recv hin hcnt
    _ = .next (answered (received s b rest) (s.rxLen :: body ++ [b])) := by
      refine completePacket_answers hbody h.fits rfl h.crc hsup fun j hj => ?_
      exact get?_received_append b rest h.cnt h.cells j (by rw [← hbody] at hj; exact hj)

/-- A byte before the last is stored, and one byte more of the packet is received (R103). -/
theorem step_midPacket {s : State} {got todo rest : List Byte} {b : Byte} (hne : todo ≠ [])
    (h : MidPacket s got (b :: todo) rest) :
    step s = .next (received s b (todo ++ rest)) ∧ MidPacket (received s b (todo ++ rest)) (got ++ [b]) todo rest := by
  have hwhole : got.length + (todo.length + 1) = s.rxLen.toNat + 1 := h.whole
  have hcnt : s.rxCnt = got.length := h.cnt
  have hfits : s.rxLen.toNat + 1 ≤ Config.rxCap := h.fits
  have hpos : 0 < todo.length := List.length_pos_of_ne_nil hne
  constructor
  · exact (step_of_byte h.turn h.loop h.next).trans (readByte_body h.recv (by simp only; omega) (by simp only; omega))
  · exact {
      turn := h.turn
      loop := h.loop
      recv := h.recv
      crc := h.crc
      fits := h.fits
      len := by rw [List.head?_append, h.len]; rfl
      cnt := by rw [List.length_append, ← hcnt]; rfl
      whole := by rw [List.length_append, List.length_singleton, Nat.add_assoc, Nat.add_comm 1]; exact hwhole
      next := rfl
      cells := get?_received_append b _ h.cnt h.cells }

/-- The rest of a packet that fits the buffer is stored byte by byte, and the last byte has it answered. -/
theorem runs_midPacket {todo : List Byte} {s : State} {got rest : List Byte} (hne : todo ≠ [])
    (h : MidPacket s got todo rest) (hsup : s.cfg.supportedCmds.length ≤ 255) :
    runs todo.length s = .next (answered (taken s todo rest) (got ++ todo)) := by
  induction todo generalizing s got with
  | nil => exact absurd rfl hne
  | cons b todo ih =>
    rw [List.length_cons, runs_succ]
    by_cases hlast : todo = []
    · subst hlast
      rw [step_midPacket_last h hsup, andThen_next]
      rfl
    · obtain ⟨hstep, hmid⟩ := step_midPacket hlast h
      rw [hstep, andThen_next, ih hlast hmid hsup]
      simp [taken, answered, received, rearm, List.replicate_succ]

/-- The state in which a byte of an oversize packet has been discarded, `rest` left on `rx` (R104). -/
def discarded (s : State) (rest : List Byte) : State :=
  { s with rx := rest, drainRem := s.drainRem - 1, trace := s.trace ++ [.byte] }

/-- The rest of an oversize packet is discarded byte by byte, and the last byte has it rejected (R104). -/
theorem runs_draining {todo : List Byte} {s : State} {pkt rest : List Byte} (hne : todo ≠ []) (henv : s.env = [])
    (hm : s.mode = .cmdLoop) (hf : s.fsm = .drain) (hrem : s.drainRem = todo.length) (hrx : s.rx = todo ++ rest)
    (hdec : decode s.cfg pkt = .error .oversize) :
    runs todo.length s = .next (answered (taken s todo rest) pkt) := by
  induction todo generalizing s with
  | nil => exact absurd rfl hne
  | cons b todo ih =>
    have hbyte : step s = readByte b { s with rx := todo ++ rest } := step_of_byte henv hm hrx
    rw [List.length_cons, runs_succ]
    by_cases hlast : todo = []
    · subst hlast
      have hstep : step s = .next (answered (taken s [b] rest) pkt) := by
        rw [hbyte, readByte_discard_last (s := { s with rx := [] ++ rest }) hf hrem]
        exact congrArg _ (rearm_raise_of_rejected hdec (by simp))
      rw [hstep]
      rfl
    · have hmore : 1 < s.drainRem := by
        rw [hrem, List.length_cons]
        exact Nat.lt_add_of_pos_left (List.length_pos_of_ne_nil hlast)
      have hstep : step s = .next (discarded s (todo ++ rest)) := hbyte.trans (readByte_discard hf hmore)
      have hleft : (discarded s (todo ++ rest)).drainRem = todo.length := by simp [discarded, hrem]
      rw [hstep, andThen_next, ih (s := discarded s (todo ++ rest)) hlast henv hm hf hleft rfl hdec]
      simp [taken, answered, discarded, rearm, List.replicate_succ]

/-- `s` with the length byte `l` of a packet taken from `rx`, of which `rest` is left, and latched (R101, R102). -/
def latched (s : State) (l : Byte) (rest : List Byte) : State :=
  { s with rx := rest, rxLen := l, trace := s.trace ++ [.len l] }

/-- R101, R141: the packet of the length byte 0 alone is answered at once. -/
theorem step_zero_answered {s : State} {rest : List Byte} (henv : s.env = []) (hm : s.mode = .cmdLoop)
    (hf : s.fsm = .waitLen) (hc : s.crcAcc = s.cfg.crcInit) (hsup : s.cfg.supportedCmds.length ≤ 255)
    (hrx : s.rx = 0 :: rest) : step s = .next (answered (latched s 0 rest) [0]) := by
  calc step s
    _ = readByte 0 { s with rx := rest } := step_of_byte henv hm hrx
    _ = completePacket { latched s 0 rest with rxBuf := Cells.set s.rxBuf 0 0, rxCnt := 1 } := readByte_zero hf
    _ = .next (answered (latched s 0 rest) [0]) := by
      refine completePacket_answers (body := []) rfl (by decide) rfl hc hsup fun j hj => ?_
      obtain rfl : j = 0 := Nat.lt_one_iff.mp hj
      exact Cells.get?_set_self ..

/-- R101: a length byte that fits the buffer is the first byte received of its packet. -/
theorem step_length {s : State} {l : Byte} {body rest : List Byte} (henv : s.env = []) (hm : s.mode = .cmdLoop)
    (hf : s.fsm = .waitLen) (hc : s.crcAcc = s.cfg.crcInit) (hcap : l.toNat + 1 ≤ Config.rxCap) (hl : l ≠ 0)
    (hbody : body.length = l.toNat) (hrx : s.rx = l :: body ++ rest) :
    ∃ t, step s = .next t ∧ MidPacket t [l] body rest ∧
      t = { latched s l (body ++ rest) with rxBuf := Cells.set s.rxBuf 0 l, rxCnt := 1, fsm := .recv } := by
  refine ⟨_, (step_of_byte henv hm hrx).trans (readByte_length hf hcap hl), ?_, rfl⟩
  refine ⟨henv, hm, rfl, hc, hcap, rfl, rfl, ?_, rfl, fun i hi => ?_⟩
  · rw [List.length_singleton, hbody, Nat.add_comm]
  · obtain rfl : i = 0 := Nat.lt_one_iff.mp hi
    exact Cells.get?_set_self ..

/-- R8 (e), as `GET_HELP` needs it. -/
theorem supportedCmds_length_of_wf {c : Config} (h : c.wf = true) : c.supportedCmds.length ≤ 255 := by
  simp only [Config.wf, Bool.and_eq_true, decide_eq_true_eq] at h
  exact h.2

/-- R108, R147: from `F_WAIT_LEN` a whole packet on `rx` is taken in `L + 1` steps and answered by what it owes. -/
theorem runs_wholePacket {s : State} {l : Byte} {body rest : List Byte} (henv : s.env = []) (hm : s.mode = .cmdLoop)
    (hf : s.fsm = .waitLen) (hc : s.crcAcc = s.cfg.crcInit) (hsup : s.cfg.supportedCmds.length ≤ 255)
    (hbody : body.length = l.toNat) (hrx : s.rx = l :: body ++ rest) :
    runs (l :: body).length s =
      .next (answered (taken (latched s l (body ++ rest)) body rest) (l :: body)) := by
  rw [List.length_cons, runs_succ]
  by_cases hl : l = 0
  · subst hl
    obtain rfl : body = [] := List.eq_nil_of_length_eq_zero hbody
    rw [step_zero_answered (rest := rest) henv hm hf hc hsup hrx, andThen_next, List.nil_append,
      taken_nil (s := latched s 0 rest) (rest := rest) rfl]
    rfl
  · have hne : body ≠ [] := by
      rintro rfl
      exact hl (BitVec.eq_of_toNat_eq hbody.symm)
    by_cases hcap : l.toNat + 1 ≤ Config.rxCap
    · obtain ⟨t, hstep, hmid, rfl⟩ := step_length henv hm hf hc hcap hl hbody hrx
      rw [hstep, andThen_next, runs_midPacket hne hmid hsup]
      rfl
    · have hover : Config.rxCap < l.toNat + 1 := Nat.lt_of_not_le hcap
      have hdec : decode s.cfg (l :: body) = .error .oversize := by rw [decode_cons, if_pos hover]
      have hstep : step s = .next { latched s l (body ++ rest) with drainRem := l.toNat, fsm := .drain } :=
        (step_of_byte henv hm hrx).trans (readByte_oversize hf hover)
      have hrun := runs_draining (s := { latched s l (body ++ rest) with drainRem := l.toNat, fsm := .drain })
        hne henv hm rfl hbody.symm rfl hdec
      rw [hstep, andThen_next, hrun]
      rfl

end Sys2Proof.Machine
end

section
/-! PROOFS of the family `10_state.md`: its obligations settled. -/

namespace Sys2Proof.Proofs

open Sys2Proof.Machine

/-- Settles O45: the block's own step keeps the invariants, a reset and a time-out establish them anew, and no other
event touches what they speak of. -/
theorem stepKeepsInvariant : Obligations.StepKeepsInvariant := by
  intro s t h hs
  rcases step_cases hs with ⟨s', hturn, hblock⟩ | ⟨b, rest, -, rfl⟩ | ⟨l, rest, -, rfl⟩ | ⟨rest, -, rfl⟩ |
    ⟨v, rest, -, rfl⟩ | ⟨v, rest, -, rfl⟩
  · exact inv_blockStep (inv_of_blockTurn hturn h) hblock
  · exact inv_ports h (s.rx ++ [b]) s.initOk s.bootSel rest
  · exact inv_stepReset l _
  · exact inv_stepRxTimeout (inv_ports h s.rx s.initOk s.bootSel rest)
  · exact inv_ports h s.rx s.initOk v rest
  · exact inv_ports h s.rx v s.bootSel rest

/-- Settles O55: the step from the empty trace says which labels are new, and every older trace stays before them. -/
theorem traceIsNeverRead : Obligations.TraceIsNeverRead := by
  intro s t tr hs
  obtain ⟨bare, hbare⟩ : ∃ bare : State, bare = { s with trace := [] } := ⟨_, rfl⟩
  have hold : ∀ tr, step { s with trace := tr } = andThen (step bare) fun u => .next (u.prependTrace tr) := by
    intro tr
    rw [← step_traceBlind, hbare, State.prependTrace, List.append_nil]
  obtain ⟨u, hu, ht⟩ := andThen_eq_next.mp ((hold s.trace).symm.trans hs)
  obtain rfl : u.prependTrace s.trace = t := Host.Outcome.next.inj ht
  refine ⟨u.trace, rfl, ?_⟩
  rw [hold, hu]
  rfl

/-- Settles O19: the boot step and a wait take nothing, and a byte's step takes that byte. -/
theorem streamConsumedFromHead : Obligations.StreamConsumedFromHead := by
  intro s s' t hturn hs
  rw [step_of_blockTurn hturn] at hs
  rcases blockStep_cases hs with ⟨-, rfl⟩ | ⟨-, -, rfl⟩ | ⟨-, b, rest, hrx, hb⟩ | ⟨-, rfl⟩
  · exact .inl (stepBoot_rx s')
  · exact .inl rfl
  · have hrest : t.rx = rest := congrArg State.rx (readByte_readerWrites hb)
    exact .inr ⟨b, hrest ▸ hrx⟩
  · exact .inl rfl

/-- Settles O59: both runs push the reply the packet owes, which is a function of the parameters and `MEM`. -/
theorem replyIndependentOfHistory : Obligations.ReplyIndependentOfHistory := by
  intro s u pkt rest rest' hs hu hwf hcfg hmem hms hmu hfs hfu hes heu hwhole hrs hru
  obtain ⟨l, body, rfl, hbody⟩ := hwhole
  have hsup : s.cfg.supportedCmds.length ≤ 255 := supportedCmds_length_of_wf hwf
  refine ⟨_, _, packetReply s.cfg s.mem (l :: body), runs_wholePacket hes hms hfs hs.crc hsup hbody hrs,
    runs_wholePacket heu hmu hfu hu.crc (hcfg ▸ hsup) hbody hru, rfl, ?_⟩
  rw [hcfg, hmem]
  rfl

/-- Settles O2: before the boot decision, with no hand-off, nothing received and the trace just begun. -/
theorem resetStateMeetsInvariants : Obligations.ResetStateMeetsInvariants := by
  refine ⟨?_, ?_, ?_⟩
  · exact inv_of_no_handOff (.inl rfl) rfl ⟨rfl, rfl, rfl⟩ ⟨rfl, rfl, rfl, fun _ => rfl⟩ (quiet_append_reset [])
  · exact ⟨rfl, by simp [State.reset], Memory.wf_nil, by simp [State.reset]⟩
  · decide

/-- Settles O10: each of the three events writes its one port of the state it is taken from. -/
theorem outsideEventsTouchOnlyTheirPort : Obligations.OutsideEventsTouchOnlyTheirPort :=
  fun _ _ => ⟨fun _ h => step_of_event h, fun _ h => step_of_event h, fun _ h => step_of_event h⟩

end Sys2Proof.Proofs
end

section
/-! PROOFS of the family `20_memory.md`, words: byte order (R52, R53) and the addresses read (R57). -/

namespace Sys2Proof.Machine

/-! ## Byte order -/

/-- The two orders are each other's mirror, in assembling and in splitting. -/
theorem word32_big (b0 b1 b2 b3 : Byte) : word32 .big b0 b1 b2 b3 = word32 .little b3 b2 b1 b0 := rfl

theorem bytes32_big (w : Word) : bytes32 .big w = (bytes32 .little w).reverse := rfl

/-- Appending shifts the high part by the width of the low part. -/
theorem toNat_append_eq_add {m n : Nat} (x : BitVec m) (y : BitVec n) :
    (x ++ y).toNat = x.toNat * 2 ^ n + y.toNat := by
  rw [BitVec.toNat_append, ← Nat.shiftLeft_add_eq_or_of_lt y.isLt, Nat.shiftLeft_eq]

theorem word32_little_toNat (b0 b1 b2 b3 : Byte) :
    (word32 .little b0 b1 b2 b3).toNat
      = b0.toNat + b1.toNat * 2 ^ 8 + b2.toNat * 2 ^ 16 + b3.toNat * 2 ^ 24 := by
  simp only [word32, toNat_append_eq_add]
  omega

theorem byteOf_toNat (w : Word) (k : Nat) : (byteOf w k).toNat = w.toNat / 2 ^ (8 * k) % 2 ^ 8 := by
  rw [byteOf, BitVec.extractLsb'_toNat, Nat.shiftRight_eq_div_pow]

/-- The bytes of an assembled word are the digits of the formula of R52. -/
theorem bytes32_word32_little (b0 b1 b2 b3 : Byte) :
    bytes32 .little (word32 .little b0 b1 b2 b3) = [b0, b1, b2, b3] := by
  have hbyte : ∀ k (b : Byte), (word32 .little b0 b1 b2 b3).toNat / 2 ^ (8 * k) % 2 ^ 8 = b.toNat →
      byteOf (word32 .little b0 b1 b2 b3) k = b :=
    fun k b h => BitVec.eq_of_toNat_eq ((byteOf_toNat _ k).trans h)
  rw [word32_little_toNat] at hbyte
  rw [bytes32, hbyte 0 b0 (by omega), hbyte 1 b1 (by omega), hbyte 2 b2 (by omega), hbyte 3 b3 (by omega)]

/-- The formula of R52 on the digits of a word gives the word. -/
theorem word32_byteOf_little (w : Word) : word32 .little (byteOf w 0) (byteOf w 1) (byteOf w 2) (byteOf w 3) = w := by
  apply BitVec.eq_of_toNat_eq
  simp only [word32_little_toNat, byteOf_toNat]
  omega

/-! ## Addresses -/

/-- A word index below 2^30 has its address in the 32-bit space (log 3). -/
theorem toNat_ofNat_four_mul {n : Nat} (h : n < 1073741824) : (BitVec.ofNat 32 (4 * n)).toNat = 4 * n := by
  rw [BitVec.toNat_ofNat]
  omega

theorem appBase_toNat (c : Config) : c.appBase.toNat = 4 * c.appBaseWord.val :=
  toNat_ofNat_four_mul (by omega)

theorem chipIdAddr_toNat (c : Config) : c.chipIdAddr.toNat = 4 * c.chipIdWord.val :=
  toNat_ofNat_four_mul c.chipIdWord.isLt

theorem optionByteAddr_toNat (c : Config) : c.optionByteAddr.toNat = 4 * c.optionByteWord.val :=
  toNat_ofNat_four_mul c.optionByteWord.isLt

theorem appBase_add_four_toNat (c : Config) : (c.appBase + 4).toNat = c.appBase.toNat + 4 := by
  have hlt : c.appBase.toNat + 4 < 2 ^ 32 := by
    rw [appBase_toNat]
    omega
  exact BitVec.toNat_add_of_lt hlt

end Sys2Proof.Machine
end

section
/-! PROOFS of the family `20_memory.md`, frames: what a step does to the parameters, `MEM`, the schedule, the receive
buffer and the record of reads, said once for each. -/

namespace Sys2Proof.Machine

theorem ReaderWrites.cfg {s t : State} (h : ReaderWrites s t) : t.cfg = s.cfg := by rw [h]
theorem ReaderWrites.mode {s t : State} (h : ReaderWrites s t) : t.mode = s.mode := by rw [h]
theorem ReaderWrites.rx {s t : State} (h : ReaderWrites s t) : t.rx = s.rx := by rw [h]
theorem ReaderWrites.mem {s t : State} (h : ReaderWrites s t) : t.mem = s.mem := by rw [h]
theorem ReaderWrites.env {s t : State} (h : ReaderWrites s t) : t.env = s.env := by rw [h]

/-- The boot step writes the mode, the reader's state, the hand-off outputs, the trace and the record of reads only. -/
theorem stepBoot_frame (s : State) :
    stepBoot s = { s with mode := (stepBoot s).mode, fsm := (stepBoot s).fsm, hoValid := (stepBoot s).hoValid,
                          hoSp := (stepBoot s).hoSp, hoEntry := (stepBoot s).hoEntry, trace := (stepBoot s).trace,
                          reads := (stepBoot s).reads } := by
  rcases stepBoot_cases s with ⟨-, e⟩ | ⟨-, -, e⟩ | ⟨-, -, -, e⟩ | ⟨-, -, -, e⟩ <;> rw [e] <;> rfl

/-- R106: the time-out leaves the state as it is, or drops the packet. -/
theorem stepRxTimeout_cases (s : State) :
    stepRxTimeout s = s ∨ stepRxTimeout s = rearm { s with trace := s.trace ++ [.drop .timeout] } := by
  unfold stepRxTimeout
  split
  · refine .inr ((rearm_raise s (by simp)).trans ?_)
    simp [Cause.response, policyReply, policyLabel]
  · exact .inl rfl

/-! ## Parameters, `MEM`, schedule -/

theorem blockStep_frame {s t : State} (h : blockStep s = .next t) :
    t.cfg = s.cfg ∧ t.mem = s.mem ∧ t.env = s.env := by
  rcases blockStep_cases h with ⟨-, rfl⟩ | ⟨-, -, rfl⟩ | ⟨-, b, rest, -, hb⟩ | ⟨-, rfl⟩
  · rw [stepBoot_frame]
    exact ⟨rfl, rfl, rfl⟩
  · exact ⟨rfl, rfl, rfl⟩
  · have hw := readByte_readerWrites hb
    exact ⟨hw.cfg, hw.mem, hw.env⟩
  · exact ⟨rfl, rfl, rfl⟩

/-- Taking the turn off the schedule changes nothing but the schedule, which loses its head or stays empty. -/
theorem blockTurn_frame {s s' : State} (h : BlockTurn s s') : s' = { s with env := s'.env } ∧ s'.env = s.env.tail := by
  rcases h with ⟨he, rfl⟩ | ⟨rest, he, rfl⟩
  · exact ⟨rfl, by rw [he]; rfl⟩
  · exact ⟨rfl, by rw [he]; rfl⟩

/-- No step writes a parameter, every step takes the head off the schedule, and `MEM` is chosen anew by `rst` only
(R46, R58, R241). -/
theorem step_frame {s t : State} (h : step s = .next t) :
    t.cfg = s.cfg ∧ t.env = s.env.tail ∧
      (t.mem = s.mem ∨ ∃ l rest, s.env = .rst l :: rest ∧ t.mem = l.mem.getD s.mem) := by
  rcases step_cases h with ⟨s', hturn, hblock⟩ | ⟨b, rest, he, rfl⟩ | ⟨l, rest, he, rfl⟩ | ⟨rest, he, rfl⟩ |
    ⟨v, rest, he, rfl⟩ | ⟨v, rest, he, rfl⟩
  · obtain ⟨hs', henv'⟩ := blockTurn_frame hturn
    obtain ⟨hcfg, hmem, henv⟩ := blockStep_frame hblock
    refine ⟨?_, henv.trans henv', .inl ?_⟩
    · rw [hcfg, hs']
    · rw [hmem, hs']
  · exact ⟨rfl, by rw [he]; rfl, .inl rfl⟩
  · exact ⟨rfl, by rw [he]; rfl, .inr ⟨l, rest, he, rfl⟩⟩
  · rcases stepRxTimeout_cases { s with env := rest } with e | e <;> rw [e, he] <;> exact ⟨rfl, rfl, .inl rfl⟩
  · exact ⟨rfl, by rw [he]; rfl, .inl rfl⟩
  · exact ⟨rfl, by rw [he]; rfl, .inl rfl⟩

/-! ## The receive buffer -/

/-- All that a step can do to the buffer: nothing, empty it, or write one cell inside it (R107, R109). -/
def BufferStep (buf buf' : List Host.Cell) : Prop :=
  buf' = buf ∨ buf' = [] ∨ ∃ i v, i < Config.rxCap ∧ buf' = Cells.set buf i v

theorem completePacket_rxBuf {s t : State} (h : completePacket s = .next t) : t.rxBuf = [] := by
  obtain ⟨tx, trace, reads, acc, -, rfl⟩ := completePacket_rearms h
  rfl

theorem readByte_bufferStep {b : Byte} {s t : State} (h : readByte b s = .next t) : BufferStep s.rxBuf t.rxBuf := by
  rcases readByte_cases h with ⟨-, -, -, rfl⟩ | ⟨-, -, hp⟩ | ⟨-, -, rfl⟩ | ⟨-, hin, -, rfl⟩ | ⟨-, -, -, hp⟩ |
    ⟨-, -, rfl⟩ | ⟨-, -, rfl⟩
  · exact .inr (.inr ⟨0, b, by decide, rfl⟩)
  · exact .inr (.inl (completePacket_rxBuf hp))
  · exact .inl rfl
  · exact .inr (.inr ⟨s.rxCnt, b, hin, rfl⟩)
  · exact .inr (.inl (completePacket_rxBuf hp))
  · exact .inl rfl
  · exact .inr (.inl rfl)

theorem blockStep_bufferStep {s t : State} (h : blockStep s = .next t) : BufferStep s.rxBuf t.rxBuf := by
  rcases blockStep_cases h with ⟨-, rfl⟩ | ⟨-, -, rfl⟩ | ⟨-, b, rest, -, hb⟩ | ⟨-, rfl⟩
  · exact .inl (by rw [stepBoot_frame])
  · exact .inl rfl
  · exact (readByte_bufferStep hb :)
  · exact .inl rfl

theorem step_bufferStep {s t : State} (h : step s = .next t) : BufferStep s.rxBuf t.rxBuf := by
  rcases step_cases h with ⟨s', hturn, hblock⟩ | ⟨b, rest, -, rfl⟩ | ⟨l, rest, -, rfl⟩ | ⟨rest, -, rfl⟩ |
    ⟨v, rest, -, rfl⟩ | ⟨v, rest, -, rfl⟩
  · have hbuf : s'.rxBuf = s.rxBuf := by rw [(blockTurn_frame hturn).1]
    exact hbuf ▸ blockStep_bufferStep hblock
  · exact .inl rfl
  · exact .inr (.inl rfl)
  · rcases stepRxTimeout_cases { s with env := rest } with e | e <;> rw [e]
    · exact .inl rfl
    · exact .inr (.inl rfl)
  · exact .inl rfl
  · exact .inl rfl

/-- What a step can do to the buffer keeps its cells rising and inside it. -/
theorem BufferStep.canonical {buf buf' : List Host.Cell} (h : BufferStep buf buf') (hrising : Cells.rising buf = true)
    (hin : ∀ c ∈ buf, c.1 < Config.rxCap) : Cells.rising buf' = true ∧ ∀ c ∈ buf', c.1 < Config.rxCap := by
  rcases h with rfl | rfl | ⟨i, v, hi, rfl⟩
  · exact ⟨hrising, hin⟩
  · exact ⟨rfl, fun c hc => absurd hc List.not_mem_nil⟩
  · refine ⟨Cells.set_rising hrising, fun c hc => ?_⟩
    rcases Cells.mem_set hc with rfl | hold
    · exact hi
    · exact hin c hold

/-! ## The record of reads -/

/-- The four addresses of R56. -/
def readAddrs (c : Config) : List Word := [c.chipIdAddr, c.optionByteAddr, c.appBase, c.appBase + 4]

/-- `t` records the reads of `s` and after them reads of the four addresses of R56 only. -/
def ReadsFour (s t : State) : Prop :=
  ∃ new, t.reads = s.reads ++ new ∧ ∀ a ∈ new, a ∈ readAddrs s.cfg

theorem readsFour_of_eq {s t : State} (h : t.reads = s.reads) : ReadsFour s t :=
  ⟨[], by rw [h, List.append_nil], fun _ ha => absurd ha List.not_mem_nil⟩

theorem instrReads_subset (c : Config) (i : Instr) : ∀ a ∈ instrReads c i, a ∈ readAddrs c := by
  cases i <;> simp [instrReads, readAddrs]

theorem completePacket_readsFour {s t : State} (h : completePacket s = .next t) : ReadsFour s t := by
  rcases completePacket_cases h with ⟨-, rfl⟩ | ⟨-, f, -, ⟨-, rfl⟩ | ⟨-, u, hu, rfl⟩⟩
  · exact readsFour_of_eq (by rw [rearm_raise _ (by simp)]; rfl)
  · exact readsFour_of_eq (by rw [rearm_raise _ (by simp)]; rfl)
  · exact ⟨_, congrArg State.reads (exec_cases hu), instrReads_subset s.cfg _⟩

theorem readByte_readsFour {b : Byte} {s t : State} (h : readByte b s = .next t) : ReadsFour s t := by
  rcases readByte_cases h with ⟨-, -, -, rfl⟩ | ⟨-, -, hp⟩ | ⟨-, -, rfl⟩ | ⟨-, -, -, rfl⟩ | ⟨-, -, -, hp⟩ |
    ⟨-, -, rfl⟩ | ⟨-, -, rfl⟩
  · exact readsFour_of_eq rfl
  · exact (completePacket_readsFour hp :)
  · exact readsFour_of_eq rfl
  · exact readsFour_of_eq rfl
  · exact (completePacket_readsFour hp :)
  · exact readsFour_of_eq rfl
  · exact readsFour_of_eq (by rw [rearm_raise _ (by simp)]; rfl)

/-- The boot step reads nothing, the first word of the Application Vector, or both (R192). -/
theorem stepBoot_readsFour (s : State) : ReadsFour s (stepBoot s) := by
  rcases stepBoot_cases s with ⟨-, e⟩ | ⟨-, -, e⟩ | ⟨-, -, -, e⟩ | ⟨-, -, -, e⟩ <;> rw [e]
  · exact readsFour_of_eq rfl
  · exact readsFour_of_eq rfl
  · exact ⟨[s.cfg.appBase], rfl, by simp [readAddrs]⟩
  · exact ⟨[s.cfg.appBase, s.cfg.appBase + 4], List.append_assoc .., by simp [readAddrs]⟩

theorem blockStep_readsFour {s t : State} (h : blockStep s = .next t) : ReadsFour s t := by
  rcases blockStep_cases h with ⟨-, rfl⟩ | ⟨-, -, rfl⟩ | ⟨-, b, rest, -, hb⟩ | ⟨-, rfl⟩
  · exact stepBoot_readsFour s
  · exact readsFour_of_eq rfl
  · exact (readByte_readsFour hb :)
  · exact readsFour_of_eq rfl

/-- Only the block's own step reads. -/
theorem step_readsFour {s t : State} (h : step s = .next t) : ReadsFour s t := by
  rcases step_cases h with ⟨s', hturn, hblock⟩ | ⟨b, rest, -, rfl⟩ | ⟨l, rest, -, rfl⟩ | ⟨rest, -, rfl⟩ |
    ⟨v, rest, -, rfl⟩ | ⟨v, rest, -, rfl⟩
  · have hreads := blockStep_readsFour hblock
    rw [(blockTurn_frame hturn).1] at hreads
    exact hreads
  · exact readsFour_of_eq rfl
  · exact readsFour_of_eq rfl
  · rcases stepRxTimeout_cases { s with env := rest } with e | e <;> rw [e] <;> exact readsFour_of_eq rfl
  · exact readsFour_of_eq rfl
  · exact readsFour_of_eq rfl

end Sys2Proof.Machine
end

section
/-! PROOFS of the family `20_memory.md`, schedules: the ports are not read by the Packet Reader, so a quiet schedule
feeds it the bytes it consumes, whenever they arrive (R62, R105). -/

namespace Sys2Proof.Machine

/-! ## The Packet Reader does not read the ports -/

/-- What the outside agents write: the receive stream, the two levels, the schedule (R21, R34, R38, R40, log 7). -/
structure Ports where
  rx : List Byte
  initOk : Bool
  bootSel : Bool
  env : List EnvEvent

def State.ports (s : State) : Ports := ⟨s.rx, s.initOk, s.bootSel, s.env⟩

/-- `s` with other contents of what the outside agents write. -/
def State.withPorts (p : Ports) (s : State) : State :=
  { s with rx := p.rx, initOk := p.initOk, bootSel := p.bootSel, env := p.env }

/-- A part of a step that, where it answers a next state, does the same under any other ports and leaves them alone. -/
def PortBlind (f : State → Out) : Prop :=
  ∀ p s t, f s = .next t → f (s.withPorts p) = .next (t.withPorts p)

theorem acknowledge_portBlind (code : Byte) (bs : List Byte) : PortBlind (acknowledge code bs) := by
  intro p s t h
  obtain ⟨hfits, rfl⟩ := acknowledge_cases h
  exact acknowledge_fits code (s.withPorts p) hfits

theorem raise_withPorts (c : Cause) (p : Ports) (s : State) : raise c (s.withPorts p) = (raise c s).withPorts p := by
  cases c <;> simp only [raise, raisePacket_eq] <;> rfl

theorem rearm_raise_withPorts (c : Cause) (p : Ports) (s : State) :
    rearm (raise c (s.withPorts p)) = (rearm (raise c s)).withPorts p :=
  congrArg rearm (raise_withPorts c p s)

theorem raise_portBlind (c : Cause) : PortBlind fun s => .next (raise c s) := by
  intro p s t h
  obtain rfl := Host.Outcome.next.inj h
  exact congrArg Host.Outcome.next (raise_withPorts c p s)

theorem exec_portBlind (i : Instr) : PortBlind (exec i) := by
  intro p s t h
  cases i with
  | getVer bs => exact acknowledge_portBlind s.cfg.codes.getVer [s.cfg.blVersion] p s t h
  | getHelp bs => exact acknowledge_portBlind s.cfg.codes.getHelp s.cfg.supportedCmds p s t h
  | getCid bs => exact acknowledge_portBlind s.cfg.codes.getCid _ p (s.memRead s.cfg.chipIdAddr).2 t h
  | getRdp bs =>
    exact acknowledge_portBlind s.cfg.codes.getRdp
      [byteOf (Memory.word s.mem s.cfg.optionByteAddr) s.cfg.rdpByteIndex.val] p (s.memRead s.cfg.optionByteAddr).2 t h
  | unknown code bs => exact raise_portBlind .unknown p s t h
  | _ bs => exact raise_portBlind .reserved p s t h

theorem runPacket_portBlind (f : Fields) : PortBlind (runPacket f) := by
  intro p s t h
  cases hv : (verify f.covered f.hostCrc s).1 with
  | true =>
    rw [runPacket_of_verified hv] at h
    rw [runPacket_of_verified (s := s.withPorts p) hv]
    exact exec_portBlind _ p { s with crcAcc := s.cfg.crcInit } t h
  | false =>
    rw [runPacket_of_not_verified hv] at h
    rw [runPacket_of_not_verified (s := s.withPorts p) hv]
    exact raise_portBlind .crc p { s with crcAcc := s.cfg.crcInit } t h

theorem completePacket_portBlind : PortBlind completePacket := by
  intro p s t h
  by_cases hl : s.rxLen.toNat < Config.minLen
  · rw [completePacket_of_short hl] at h
    obtain rfl := Host.Outcome.next.inj h
    rw [completePacket_of_short (s := s.withPorts p) hl, rearm_raise_withPorts]
  · cases hf : readFields s.cfg.byteOrder s.rxBuf s.rxLen.toNat with
    | error r =>
      rw [completePacket_of_error hl hf] at h
      cases h
    | ok f =>
      rw [completePacket_of_fields hl hf] at h
      obtain ⟨u, hu, hrearm⟩ := andThen_eq_next.mp h
      obtain rfl := Host.Outcome.next.inj hrearm
      rw [completePacket_of_fields (s := s.withPorts p) hl hf, runPacket_portBlind f p s u hu]
      rfl

theorem readByte_portBlind (b : Byte) : PortBlind (readByte b) := by
  intro p s t h
  have hfsm : (s.withPorts p).fsm = s.fsm := rfl
  rcases readByte_cases h with ⟨hf, hcap, hb, rfl⟩ | ⟨hf, rfl, hp⟩ | ⟨hf, hcap, rfl⟩ | ⟨hf, hin, hcnt, rfl⟩ |
    ⟨hf, hin, hcnt, hp⟩ | ⟨hf, hrem, rfl⟩ | ⟨hf, hrem, rfl⟩ <;> rw [hf] at hfsm
  · exact readByte_length hfsm hcap hb
  · exact (readByte_zero hfsm).trans (completePacket_portBlind p _ t hp)
  · exact readByte_oversize hfsm hcap
  · exact readByte_body hfsm hin hcnt
  · exact (readByte_last hfsm hin hcnt).trans (completePacket_portBlind p _ t hp)
  · exact readByte_discard hfsm hrem
  · rw [readByte_discard_last hfsm hrem, ← rearm_raise_withPorts]
    rfl

theorem feed_portBlind (bs : List Byte) : PortBlind (feed bs) := by
  intro p s t h
  induction bs generalizing s with
  | nil =>
    obtain rfl := Host.Outcome.next.inj h
    rfl
  | cons b bs ih =>
    obtain ⟨u, hu, hrest⟩ := andThen_eq_next.mp h
    rw [feed, readByte_portBlind b p s u hu]
    exact ih u hrest

/-- States that agree but for the ports are one state under two ports. -/
theorem eq_withPorts_of_inside {s v : State} (h : inside s = inside v) : v = s.withPorts v.ports := by
  calc v
    _ = (inside v).withPorts v.ports := rfl
    _ = (inside s).withPorts v.ports := by rw [h]
    _ = s.withPorts v.ports := rfl

/-- States that agree but for the ports still do so after the same bytes. -/
theorem feed_of_inside {s v u : State} {bs : List Byte} (hsv : inside s = inside v) (h : feed bs s = .next u) :
    ∃ w, feed bs v = .next w ∧ inside u = inside w := by
  rw [eq_withPorts_of_inside hsv]
  exact ⟨_, feed_portBlind bs v.ports s u h, rfl⟩

/-! ## A quiet schedule feeds the reader what it consumes -/

theorem feed_append (bs bs' : List Byte) (s : State) : feed (bs ++ bs') s = andThen (feed bs s) (feed bs') := by
  induction bs generalizing s with
  | nil => rfl
  | cons b bs ih =>
    rw [List.cons_append, feed, feed]
    cases readByte b s with
    | next u => exact ih u
    | fault r => rfl
    | refused r => rfl

theorem sends_cons (e : EnvEvent) (rest : List EnvEvent) : sends (e :: rest) = sends [e] ++ sends rest := by
  cases e <;> rfl

/-- `t` follows `s` in the command loop, the host having sent `sent` on the way: what stood on `rx` and what was sent is
what the block consumed and what stands on `rx`, and the consumed bytes, fed one by one, give the same block. -/
def FeedsTo (s : State) (sent : List Byte) (t : State) : Prop :=
  ∃ eaten u, s.rx ++ sent = eaten ++ t.rx ∧ feed eaten s = .next u ∧ inside t = inside u

theorem feedsTo_of_inside {s t : State} {sent : List Byte} (hrx : t.rx = s.rx ++ sent) (h : inside t = inside s) :
    FeedsTo s sent t :=
  ⟨[], s, hrx.symm, rfl, h⟩

theorem feedsTo_trans {s t v : State} {sent sent' : List Byte} (hst : FeedsTo s sent t) (htv : FeedsTo t sent' v) :
    FeedsTo s (sent ++ sent') v := by
  obtain ⟨eaten, u, hrx, hfeed, hin⟩ := hst
  obtain ⟨eaten', u', hrx', hfeed', hin'⟩ := htv
  obtain ⟨w, hw, hin''⟩ := feed_of_inside hin hfeed'
  refine ⟨eaten ++ eaten', w, ?_, ?_, hin'.trans hin''⟩
  · rw [← List.append_assoc, hrx, List.append_assoc, hrx', List.append_assoc]
  · rw [feed_append, hfeed, andThen_next, hw]

/-- The block's turn in the command loop: it waits, or takes the oldest byte. -/
theorem blockStep_feedsTo {s t : State} (hm : s.mode = .cmdLoop) (h : blockStep s = .next t) :
    t.mode = .cmdLoop ∧ t.env = s.env ∧ FeedsTo s [] t := by
  cases hrx : s.rx with
  | nil =>
    rw [blockStep_of_empty hm hrx] at h
    obtain rfl := Host.Outcome.next.inj h
    exact ⟨hm, rfl, feedsTo_of_inside (List.append_nil _).symm rfl⟩
  | cons b rest =>
    rw [blockStep_of_byte hm hrx] at h
    have hw := readByte_readerWrites h
    have hbyte : readByte b s = .next (t.withPorts s.ports) := 
      readByte_portBlind b s.ports { s with rx := rest } t h
    have hfeed : feed [b] s = .next (t.withPorts s.ports) := by rw [feed, hbyte]; rfl
    refine ⟨hw.mode.trans hm, hw.env, [b], _, ?_, hfeed, rfl⟩
    rw [hrx, hw.rx, List.append_nil, List.singleton_append]

/-- One quiet event of the schedule. -/
theorem step_feedsTo {s t : State} {e : EnvEvent} {rest : List EnvEvent} (henv : s.env = e :: rest)
    (hq : quietEvent e = true) (hm : s.mode = .cmdLoop) (h : step s = .next t) :
    t.mode = .cmdLoop ∧ t.env = rest ∧ FeedsTo s (sends [e]) t := by
  rw [step_of_event henv] at h
  cases e with
  | block =>
    have hturn : FeedsTo s [] { s with env := rest } := feedsTo_of_inside (List.append_nil _).symm rfl
    obtain ⟨hm', henv', hfeeds⟩ := blockStep_feedsTo (s := { s with env := rest }) hm h
    exact ⟨hm', henv', feedsTo_trans hturn hfeeds⟩
  | hostSend b =>
    obtain rfl := Host.Outcome.next.inj h
    exact ⟨hm, rfl, feedsTo_of_inside rfl rfl⟩
  | setBootSel v =>
    obtain rfl := Host.Outcome.next.inj h
    exact ⟨hm, rfl, feedsTo_of_inside (List.append_nil _).symm rfl⟩
  | setInitOk v =>
    obtain rfl := Host.Outcome.next.inj h
    exact ⟨hm, rfl, feedsTo_of_inside (List.append_nil _).symm rfl⟩
  | rst l => cases hq
  | rxTimeout => cases hq

/-- A whole quiet schedule. -/
theorem runs_feedsTo {env : List EnvEvent} {s t : State} (henv : s.env = env) (hq : ∀ e ∈ env, quietEvent e = true)
    (hm : s.mode = .cmdLoop) (h : runs env.length s = .next t) : FeedsTo s (sends env) t := by
  induction env generalizing s with
  | nil =>
    obtain rfl := Host.Outcome.next.inj h
    exact feedsTo_of_inside (List.append_nil _).symm rfl
  | cons e rest ih =>
    rw [List.length_cons, runs_succ] at h
    obtain ⟨u, hstep, hruns⟩ := andThen_eq_next.mp h
    obtain ⟨hm', henv', hfeeds⟩ := step_feedsTo henv (hq e (List.mem_cons_self ..)) hm hstep
    rw [sends_cons]
    exact feedsTo_trans hfeeds (ih henv' (fun e' he' => hq e' (List.mem_cons_of_mem _ he')) hm' hruns)

end Sys2Proof.Machine
end

section
/-! PROOFS of the family `20_memory.md`, sessions: whole packets one after the other (R64). -/

namespace Sys2Proof.Machine

/-- From an idle reader any number of whole packets is answered packet by packet, and the reader is idle again. -/
theorem runs_session {pkts : List (List Byte)} {s : State} {rest : List Byte} (henv : s.env = [])
    (hm : s.mode = .cmdLoop) (hidle : Idle s) (hc : s.crcAcc = s.cfg.crcInit)
    (hsup : s.cfg.supportedCmds.length ≤ 255) (hwhole : ∀ pkt ∈ pkts, WholePacket pkt)
    (hrx : s.rx = pkts.flatten ++ rest) :
    ∃ t, runs pkts.flatten.length s = .next t ∧ t.mode = .cmdLoop ∧ Idle t ∧ t.rx = rest ∧
      t.tx = s.tx ++ (pkts.map (packetReply s.cfg s.mem)).flatten ∧
      t.reads = s.reads ++ (pkts.map (packetReads s.cfg)).flatten := by
  induction pkts generalizing s with
  | nil => exact ⟨s, rfl, hm, hidle, hrx, (List.append_nil _).symm, (List.append_nil _).symm⟩
  | cons pkt pkts ih =>
    obtain ⟨l, body, rfl, hbody⟩ := hwhole pkt (List.mem_cons_self ..)
    have hnext : s.rx = l :: body ++ (pkts.flatten ++ rest) := by
      rw [hrx, List.flatten_cons, List.append_assoc]
    have hfirst := runs_wholePacket henv hm hidle.1 hc hsup hbody hnext
    obtain ⟨t, hruns, hmode, hidle', hrest, htx, hreads⟩ := ih
      (s := answered (taken (latched s l (body ++ (pkts.flatten ++ rest))) body (pkts.flatten ++ rest)) (l :: body))
      henv hm ⟨rfl, rfl, rfl, fun _ => rfl⟩ hc hsup (fun p hp => hwhole p (List.mem_cons_of_mem _ hp)) rfl
    refine ⟨t, ?_, hmode, hidle', hrest, ?_, ?_⟩
    · rw [List.flatten_cons, List.length_append, runs_add, hfirst, andThen_next, hruns]
    · rw [List.map_cons, List.flatten_cons, ← List.append_assoc]; exact htx
    · rw [List.map_cons, List.flatten_cons, ← List.append_assoc]; exact hreads

end Sys2Proof.Machine
end

section
/-! PROOFS of the family `20_memory.md`: its obligations settled. -/

namespace Sys2Proof.Proofs

open Sys2Proof.Machine

/-- Settles O58: each whole packet is answered by what it owes and leaves the reader idle for the next one, which is an
induction over the packets. -/
theorem sessionAnsweredInOrder : Obligations.SessionAnsweredInOrder := by
  intro pkts s rest hinv hwf hm hf henv hwhole hrx
  exact runs_session henv hm (hinv.waiting hm hf) hinv.crc (supportedCmds_length_of_wf hwf) hwhole hrx

/-- Settles O60: an outside event leaves the reader as it is, the block's turn feeds it one byte or none, and the reader
does not read what the outside agents write. -/
theorem scheduleMakesNoDifference : Obligations.ScheduleMakesNoDifference := by
  intro s t hm hq h
  exact runs_feedsTo rfl hq hm h

/-- Settles O20: a reply comes from a completion or from the last discarded byte, and both arm the reader again. -/
theorem replyOnlyWhenPacketEnds : Obligations.ReplyOnlyWhenPacketEnds := by
  intro s s' t _ hturn h htx
  rw [step_of_blockTurn hturn] at h
  rcases blockStep_cases h with ⟨-, rfl⟩ | ⟨-, -, rfl⟩ | ⟨-, b, rest, hrx, hb⟩ | ⟨-, rfl⟩
  · exact absurd (by rw [stepBoot_frame]) htx
  · exact absurd rfl htx
  · rcases readByte_cases hb with ⟨-, -, -, rfl⟩ | ⟨hf, rfl, hp⟩ | ⟨-, -, rfl⟩ | ⟨-, -, -, rfl⟩ | ⟨hf, -, hcnt, hp⟩ |
      ⟨-, -, rfl⟩ | ⟨hf, hrem, rfl⟩
    · exact absurd rfl htx
    · exact ⟨completePacket_idle hp, .inl ⟨hf, by rw [hrx, List.head?_cons]⟩⟩
    · exact absurd rfl htx
    · exact absurd rfl htx
    · exact ⟨completePacket_idle hp, .inr (.inl ⟨hf, hcnt⟩)⟩
    · exact absurd rfl htx
    · exact ⟨⟨rfl, rfl, rfl, fun _ => rfl⟩, .inr (.inr ⟨hf, hrem⟩)⟩
  · exact absurd rfl htx

/-- Settles O35: the formula under `LITTLE`, and `BIG` is its mirror. -/
theorem wordAssembledByFormula : Obligations.WordAssembledByFormula := by
  intro b0 b1 b2 b3
  refine ⟨word32_little_toNat b0 b1 b2 b3, ?_⟩
  rw [word32_big, word32_little_toNat]
  omega

/-- Settles O36: splitting reads the digits of the formula that assembling sums, and `BIG` mirrors `LITTLE`. -/
theorem splitAndAssembleAreInverse : Obligations.SplitAndAssembleAreInverse := by
  intro o
  cases o with
  | little =>
    exact ⟨bytes32_word32_little, fun w => ⟨_, _, _, _, rfl, word32_byteOf_little w⟩⟩
  | big =>
    refine ⟨fun b0 b1 b2 b3 => ?_, fun w => ⟨_, _, _, _, rfl, word32_byteOf_little w⟩⟩
    rw [word32_big, bytes32_big, bytes32_word32_little]
    rfl

/-- Settles O46: a step writes the buffer inside it and in order, takes `MEM` from the schedule or leaves it, and adds
nothing to the schedule. -/
theorem stepKeepsCanonicalForm : Obligations.StepKeepsCanonicalForm := by
  intro s t hcan h
  obtain ⟨-, henv, hmem⟩ := step_frame h
  obtain ⟨hrising, hin⟩ := (step_bufferStep h).canonical hcan.bufRising hcan.bufInside
  refine ⟨hrising, hin, ?_, fun l m hl hm => hcan.env l m (List.mem_of_mem_tail (henv ▸ hl)) hm⟩
  rcases hmem with e | ⟨l, rest, he, e⟩ <;> rw [e]
  · exact hcan.mem
  · cases hl : l.mem with
    | none => exact hcan.mem
    | some m => exact hcan.env l m (he ▸ List.mem_cons_self ..) hl

/-- Settles O49: the boot step reads the Application Vector, a verified command its own word, and nothing else reads. -/
theorem onlyFourAddressesRead : Obligations.OnlyFourAddressesRead := fun _ _ h => step_readsFour h

/-- Settles O50: `MEM` is chosen anew by `rst` only, and the parameters by nothing. -/
theorem memoryAndParametersFixed : Obligations.MemoryAndParametersFixed := by
  intro s t h
  obtain ⟨hcfg, -, hmem⟩ := step_frame h
  refine ⟨hcfg, fun hrst a => ?_⟩
  rcases hmem with e | ⟨l, rest, he, -⟩
  · rw [e]
  · exact absurd he (hrst l rest)

/-- Settles O7: an address is four times a word index, and the index of `APP_BASE` leaves room for the next word. -/
theorem readAddressesAreAligned : Obligations.ReadAddressesAreAligned := by
  intro c
  refine ⟨?_, appBase_add_four_toNat c, ?_, ?_⟩
  · rw [appBase_toNat, Nat.mul_mod_right]
  · rw [chipIdAddr_toNat, Nat.mul_mod_right]
  · rw [optionByteAddr_toNat, Nat.mul_mod_right]

end Sys2Proof.Proofs
end

section
/-! PROOFS of the family `30_encoding.md`, packets: the bytes of R70 cut into fields, what they decode to, and when they
are the packet `PKT` of R84. -/

namespace Sys2Proof.Proofs

open Sys2Proof.Machine

/-! ## Fields and packets -/

/-- The decoder on the bytes of a packet that fits the buffer, whatever follows them: the checksum decides (R78). -/
theorem decode_fields {c : Config} {l code b0 b1 b2 b3 : Byte} {p : List Byte} (rest : List Byte)
    (hl : l.toNat = p.length + 5) (hcap : l.toNat + 1 ≤ Config.rxCap) :
    decode c (l :: code :: (p ++ [b0, b1, b2, b3]) ++ rest) =
      if word32 c.byteOrder b0 b1 b2 b3 = crc32w c (l :: code :: p) then .ok (decodeCommand c code p, rest)
      else .error .badChecksum := by
  have hbody : (code :: (p ++ [b0, b1, b2, b3])).length = l.toNat := by simp [hl]
  have hwhole : ¬ (code :: (p ++ [b0, b1, b2, b3]) ++ rest).length < l.toNat := by
    rw [List.length_append, hbody]
    omega
  have hmin : ¬ l.toNat < Config.minLen := by
    rw [hl, Config.minLen]
    omega
  rw [List.cons_append, decode_cons, if_neg (by omega), if_neg hwhole, if_neg hmin, List.take_left' hbody,
    List.drop_left' hbody, decodeBody_fields]
  by_cases hcrc : word32 c.byteOrder b0 b1 b2 b3 = crc32w c (l :: code :: p)
  · rw [if_pos hcrc, if_pos hcrc]
  · rw [if_neg hcrc, if_neg hcrc]

/-- The length byte of R84 says how many bytes follow it: the code, the payload and the checksum. -/
theorem lengthByte_eq_iff {l : Byte} {n : Nat} (hn : n + 6 ≤ Config.rxCap) :
    l = BitVec.ofNat 8 (5 + n) ↔ l.toNat = n + 5 := by
  have hlt : 5 + n < 2 ^ 8 := by
    rw [Config.rxCap] at hn
    omega
  rw [← BitVec.toNat_inj, BitVec.toNat_ofNat, Nat.mod_eq_of_lt hlt, Nat.add_comm 5 n]

/-- Bytes with the length byte and the checksum of R84 are the packet of their code and payload. -/
theorem fields_eq_packet {c : Config} {l code b0 b1 b2 b3 : Byte} {p : List Byte}
    (hl : l = BitVec.ofNat 8 (5 + p.length)) (hcrc : word32 c.byteOrder b0 b1 b2 b3 = crc32w c (l :: code :: p)) :
    l :: code :: (p ++ [b0, b1, b2, b3]) = packet c code p := by
  have hbytes : bytes32 c.byteOrder (crc32w c (l :: code :: p)) = [b0, b1, b2, b3] := by
    rw [← hcrc, (splitAndAssembleAreInverse c.byteOrder).1]
  rw [packet, packetBody, ← hl, hbytes]
  rfl

/-- A packet that fits the buffer decodes to the command of its code, and the bytes after it are left (R72, R78). -/
theorem decode_packet {c : Config} {code : Byte} {p : List Byte} (rest : List Byte)
    (hp : p.length + 6 ≤ Config.rxCap) :
    decode c (packet c code p ++ rest) = .ok (decodeCommand c code p, rest) := by
  obtain ⟨l, hl⟩ : ∃ l : Byte, l = BitVec.ofNat 8 (5 + p.length) := ⟨_, rfl⟩
  obtain ⟨b0, b1, b2, b3, -, hcrc⟩ := (splitAndAssembleAreInverse c.byteOrder).2 (crc32w c (l :: code :: p))
  have hlen : l.toNat = p.length + 5 := (lengthByte_eq_iff hp).mp hl
  rw [← fields_eq_packet hl hcrc, decode_fields rest hlen (by omega), if_pos hcrc]

/-! ## The command code map -/

/-- Under distinct codes the code map reads the code of a well-formed instruction as that instruction (R77). -/
theorem decodeCommand_code (i : Instr) : Laws.CodeMap.Statement i := by
  cases i with
  | getVer p => exact Laws.CodeMap.getVer p
  | getHelp p => exact Laws.CodeMap.getHelp p
  | getCid p => exact Laws.CodeMap.getCid p
  | getRdp p => exact Laws.CodeMap.getRdp p
  | goToAddr p => exact Laws.CodeMap.goToAddr p
  | flashErase p => exact Laws.CodeMap.flashErase p
  | memWrite p => exact Laws.CodeMap.memWrite p
  | enRwProtect p => exact Laws.CodeMap.enRwProtect p
  | memRead p => exact Laws.CodeMap.memRead p
  | readSectorStatus p => exact Laws.CodeMap.readSectorStatus p
  | otpRead p => exact Laws.CodeMap.otpRead p
  | disRwProtect p => exact Laws.CodeMap.disRwProtect p
  | unknown code p => exact Laws.CodeMap.unknown code p

/-- `i` stands for the code and the payload: it has both, and is `unknown` for none of the twelve codes (R77, R178). -/
def StandsFor (c : Config) (code : Byte) (p : List Byte) (i : Instr) : Prop :=
  i.code c = code ∧ i.payload = p ∧ i.codeLegal c = true

/-- Whatever the codes, what the code map answers stands for what it was given (R143). -/
theorem decodeCommand_standsFor (c : Config) (code : Byte) (p : List Byte) :
    StandsFor c code p (decodeCommand c code p) := by
  unfold decodeCommand
  repeat' refine iteInduction (motive := StandsFor c code p) (fun hcode => ⟨hcode.symm, rfl, rfl⟩) fun _ => ?_
  exact ⟨rfl, rfl, by simp [Instr.codeLegal, Codes.all, *]⟩

end Sys2Proof.Proofs
end

section
/-! PROOFS of the family `30_encoding.md`, replies: what a step pushes to `tx`, and the label it leaves with it. -/

namespace Sys2Proof.Machine

/-- R80 to R82: `out` is nothing, or the one byte `7F`, or one whole Acknowledge, and the last label says which. -/
def OneReply (out : List Byte) (last : Option Event) : Prop :=
  out = [] ∨ (out = [0x7F] ∧ ∃ c, last = some (.nack c)) ∨
    ((∃ p, out = ackBytes p ∧ p.length ≤ 255) ∧ ∃ code, last = some (.ack code))

/-- `t` has on `tx` what `s` has and at most one reply after it, with the label of it. -/
def RepliesOnce (s t : State) : Prop :=
  ∃ out, t.tx = s.tx ++ out ∧ OneReply out t.trace.getLast?

theorem oneReply_ack {p : List Byte} (code : Byte) (hp : p.length ≤ 255) :
    OneReply (ackBytes p) (some (.ack code)) :=
  .inr (.inr ⟨⟨p, rfl, hp⟩, code, rfl⟩)

theorem oneReply_policy (c : Cause) (r : Response) : OneReply (policyReply r) (some (policyLabel c r)) := by
  cases r with
  | nack => exact .inr (.inl ⟨rfl, c, rfl⟩)
  | silent => exact .inl rfl

theorem bytes16_length (o : ByteOrder) (h : BitVec 16) : (bytes16 o h).length = 2 := by
  cases o <;> rfl

/-- The reply a verified command owes is one of the forms of R82, if the command list can be framed (R8 (e)). -/
theorem oneReply_instr {c : Config} {i : Instr} (m : List Host.Cell)
    (hsup : ∀ p, i = .getHelp p → c.supportedCmds.length ≤ 255) :
    OneReply (instrReply c m i) (some (instrLabel c i)) := by
  cases i with
  | getVer p => exact oneReply_ack _ (by simp)
  | getHelp p => exact oneReply_ack _ (hsup p rfl)
  | getCid p => exact oneReply_ack _ (by simp [bytes16_length])
  | getRdp p => exact oneReply_ack _ (by simp)
  | unknown code p => exact oneReply_policy .unknown _
  | _ => exact oneReply_policy .reserved _

/-- `GET_HELP` answers only with a command list that can be framed (R80, log 15). -/
theorem supportedCmds_length_of_exec {p : List Byte} {s t : State} (h : exec (.getHelp p) s = .next t) :
    s.cfg.supportedCmds.length ≤ 255 :=
  (acknowledge_cases (exec_getHelp p s ▸ h)).1

theorem repliesOnce_of_eq {s t : State} (h : t.tx = s.tx) : RepliesOnce s t :=
  ⟨[], by rw [h, List.append_nil], .inl rfl⟩

/-- A reply pushed with its label after it, whatever labels stand before. -/
theorem repliesOnce_of_reply {s t : State} {out : List Byte} {e : Event} {tr : List Event}
    (hout : OneReply out (some e)) (htx : t.tx = s.tx ++ out) (htr : t.trace = tr ++ [e]) : RepliesOnce s t :=
  ⟨out, htx, by rwa [htr, List.getLast?_concat]⟩

theorem rearm_raise_repliesOnce {c : Cause} (s : State) (hc : c ≠ .init ∧ c ≠ .badSp) :
    RepliesOnce s (rearm (raise c s)) := by
  rw [rearm_raise s hc]
  exact repliesOnce_of_reply (oneReply_policy c _) rfl rfl

theorem exec_repliesOnce {i : Instr} {s t : State} (h : exec i s = .next t) : RepliesOnce s t := by
  have hsup : ∀ p, i = .getHelp p → s.cfg.supportedCmds.length ≤ 255 := by
    rintro p rfl
    exact supportedCmds_length_of_exec h
  rw [exec_cases h]
  exact repliesOnce_of_reply (oneReply_instr s.mem hsup) rfl rfl

theorem completePacket_repliesOnce {s t : State} (h : completePacket s = .next t) : RepliesOnce s t := by
  rcases completePacket_cases h with ⟨-, rfl⟩ | ⟨-, f, -, ⟨-, rfl⟩ | ⟨-, u, hu, rfl⟩⟩
  · exact rearm_raise_repliesOnce s (by simp)
  · exact (rearm_raise_repliesOnce (c := .crc) { s with crcAcc := s.cfg.crcInit } (by simp) :)
  · exact (exec_repliesOnce hu :)

theorem readByte_repliesOnce {b : Byte} {s t : State} (h : readByte b s = .next t) : RepliesOnce s t := by
  rcases readByte_cases h with ⟨-, -, -, rfl⟩ | ⟨-, -, hp⟩ | ⟨-, -, rfl⟩ | ⟨-, -, -, rfl⟩ | ⟨-, -, -, hp⟩ |
    ⟨-, -, rfl⟩ | ⟨-, -, rfl⟩
  · exact repliesOnce_of_eq rfl
  · exact (completePacket_repliesOnce hp :)
  · exact repliesOnce_of_eq rfl
  · exact repliesOnce_of_eq rfl
  · exact (completePacket_repliesOnce hp :)
  · exact repliesOnce_of_eq rfl
  · exact (rearm_raise_repliesOnce (c := .oversize) { s with drainRem := 0, trace := s.trace ++ [.byte] } (by simp) :)

/-- Only a byte taken by the reader can be answered: the boot step and a wait push nothing (R201, R105). -/
theorem blockStep_repliesOnce {s t : State} (h : blockStep s = .next t) : RepliesOnce s t := by
  rcases blockStep_cases h with ⟨-, rfl⟩ | ⟨-, -, rfl⟩ | ⟨-, b, rest, -, hb⟩ | ⟨-, rfl⟩
  · exact repliesOnce_of_eq (by rw [stepBoot_frame])
  · exact repliesOnce_of_eq rfl
  · exact (readByte_repliesOnce hb :)
  · exact repliesOnce_of_eq rfl

/-- No outside event pushes a byte, a reset and a time-out among them (R241, R106). -/
theorem step_repliesOnce {s t : State} (h : step s = .next t) : RepliesOnce s t := by
  rcases step_cases h with ⟨s', hturn, hblock⟩ | ⟨b, rest, -, rfl⟩ | ⟨l, rest, -, rfl⟩ | ⟨rest, -, rfl⟩ |
    ⟨v, rest, -, rfl⟩ | ⟨v, rest, -, rfl⟩
  · have hreply := blockStep_repliesOnce hblock
    rw [(blockTurn_frame hturn).1] at hreply
    exact hreply
  · exact repliesOnce_of_eq rfl
  · exact repliesOnce_of_eq rfl
  · rcases stepRxTimeout_cases { s with env := rest } with e | e <;> rw [e] <;> exact repliesOnce_of_eq rfl
  · exact repliesOnce_of_eq rfl
  · exact repliesOnce_of_eq rfl

end Sys2Proof.Machine
end

section
/-! PROOFS of the family `30_encoding.md`: its obligations settled. -/

namespace Sys2Proof.Proofs

open Sys2Proof.Machine

/-- Settles O42: the packet decodes to the command of its code, and distinct codes name one instruction each. -/
theorem decodeEncodeGivesBack : Obligations.DecodeEncodeGivesBack := by
  intro c i rest hdistinct hwf
  obtain ⟨hfits, hlegal⟩ : i.payloadFits = true ∧ i.codeLegal c = true := by simpa [Instr.wf] using hwf
  calc decode c (encode c i ++ rest)
    _ = .ok (decodeCommand c (i.code c) i.payload, rest) := decode_packet rest (of_decide_eq_true hfits)
    _ = .ok (i, rest) := by rw [decodeCommand_code i c hdistinct hlegal]

/-- Settles O43: an accepted sequence has the length byte and the checksum of R84, and its code and payload are those of
the instruction it decodes to. -/
theorem decodedBytesAreTheEncoding : Obligations.DecodedBytesAreTheEncoding := by
  intro c bs rest i h
  obtain ⟨l, code, p, b0, b1, b2, b3, rfl, hlen, hcap, hcrc, rfl⟩ := decode_cases h
  obtain ⟨hcode, hpayload, hlegal⟩ := decodeCommand_standsFor c code p
  have hp : p.length + 6 ≤ Config.rxCap := by omega
  constructor
  · rw [encode, hcode, hpayload, fields_eq_packet ((lengthByte_eq_iff hp).mpr hlen) hcrc]
  · simp [Instr.wf, Instr.payloadFits, hpayload, hlegal, hp]

/-- Settles O44: the three tests on the length byte, in the decoder's order. -/
theorem lengthClassesRejected : Obligations.LengthClassesRejected := by
  intro c l tl
  refine ⟨fun hover => ?_, fun hshort hthere => ?_, fun hfits hmissing => ?_⟩ <;>
    rw [decode_cons, Config.rxCap, Config.minLen]
  · rw [if_pos hover]
  · rw [if_neg (by omega), if_neg (by omega), if_pos hshort]
  · rw [if_neg (by omega), if_pos hmissing]

/-- Settles O51: a reply is pushed by an error path or a handler, with its label, and nothing else pushes. -/
theorem oneReplyAtMostPerStep : Obligations.OneReplyAtMostPerStep := fun _ _ h => step_repliesOnce h

/-- Settles O41: the three are packets without a payload, and their checksums are computed. -/
theorem tablePacketsDecode : Obligations.TablePacketsDecode := by
  have hdecode : ∀ code b0 b1 b2 b3 : Byte,
      word32 Config.default.byteOrder b0 b1 b2 b3 = crc32w Config.default [5, code] →
      decode Config.default [5, code, b0, b1, b2, b3] = .ok (decodeCommand Config.default code [], []) :=
    fun code b0 b1 b2 b3 hcrc => (decode_fields (p := []) [] rfl (by decide)).trans (if_pos hcrc)
  exact ⟨hdecode 0x51 _ _ _ _ (by decide +kernel), hdecode 0x56 _ _ _ _ (by decide +kernel),
    hdecode 0x00 _ _ _ _ (by decide +kernel)⟩

end Sys2Proof.Proofs
end

section
/-! PROOFS of the family `40_packet_reader.md`: the block's turn with a byte to take, the two outcomes of `rx_timeout`,
and the state a whole packet leaves. -/

namespace Sys2Proof.Machine

/-! ## The block's turn in the command loop -/

/-- R62: on its turn in the command loop the block takes the oldest byte. -/
theorem step_of_turn_byte {s s' : State} {b : Byte} {rest : List Byte} (hturn : BlockTurn s s')
    (hm : s'.mode = .cmdLoop) (hrx : s'.rx = b :: rest) : step s = readByte b { s' with rx := rest } := by
  rw [step_of_blockTurn hturn, blockStep_of_byte hm hrx]

/-! ## The event `rx_timeout` -/

/-- R106: a partly received packet is dropped: a label, no reply, and the reader is armed again. -/
theorem stepRxTimeout_of_enabled {s : State} (hen : s.cfg.rxTimeoutEn = true) (hm : s.mode = .cmdLoop)
    (hf : s.fsm = .recv ∨ s.fsm = .drain) :
    stepRxTimeout s = rearm { s with trace := s.trace ++ [.drop .timeout] } := by
  rw [stepRxTimeout, if_pos ⟨hen, hm, hf⟩, rearm_raise s (by decide)]
  simp [Cause.response, policyReply, policyLabel]

/-- R41, log 19: without the parameter, outside the command loop or between two packets the event has no effect. -/
theorem stepRxTimeout_of_disabled {s : State}
    (h : s.cfg.rxTimeoutEn = false ∨ s.mode ≠ .cmdLoop ∨ s.fsm = .waitLen) : stepRxTimeout s = s := by
  refine if_neg ?_
  rintro ⟨hen, hm, hf⟩
  rcases h with hdis | hout | hwait
  · exact absurd (hen.symm.trans hdis) (by decide)
  · exact hout hm
  · rw [hwait] at hf
    exact absurd hf (by decide)

/-! ## The buffer and the whole packet -/

/-- A value in a cell after a step was there before it, or the cell is inside the buffer (R109). -/
theorem BufferStep.get? {buf buf' : List Host.Cell} {i : Nat} {v : Byte} (h : BufferStep buf buf')
    (hv : Cells.get? buf' i = some v) : Cells.get? buf i = some v ∨ i < Config.rxCap := by
  rcases h with rfl | rfl | ⟨j, w, hj, rfl⟩
  · exact .inl hv
  · cases hv
  · by_cases hij : i = j
    · exact .inr (hij ▸ hj)
    · exact .inl (by rwa [Cells.get?_set_ne _ _ _ _ hij] at hv)

/-- From an idle reader, a packet taken and answered leaves `rx_len`, the emptied buffer, the streams and the records
changed, and nothing else: the counters are back where they were. -/
theorem answered_of_idle {s : State} (h : Idle s) (l : Byte) (body mid rest : List Byte) :
    answered (taken (latched s l mid) body rest) (l :: body) =
      { s with
        rx := rest
        rxLen := l
        rxBuf := []
        tx := s.tx ++ packetReply s.cfg s.mem (l :: body)
        reads := s.reads ++ packetReads s.cfg (l :: body)
        trace := s.trace ++ packetTrace s.cfg (l :: body) } := by
  obtain ⟨hf, hcnt, hrem, -⟩ := h
  simp [answered, taken, latched, rearm, packetTrace, hf, hcnt, hrem]

end Sys2Proof.Machine
end

section
/-! PROOFS of the family `40_packet_reader.md`: its obligations settled. -/

namespace Sys2Proof.Proofs

open Sys2Proof.Machine

/-- Settles O57: the run of a whole packet ends in the state that answers it, and the invariants say that the reader was
idle before it as it is after it. -/
theorem wholePacketAnswered : Obligations.WholePacketAnswered := by
  intro s pkt rest hinv hwf hm hf henv hwhole hrx
  obtain ⟨l, body, rfl, hbody⟩ := hwhole
  rw [runs_wholePacket henv hm hf hinv.crc (supportedCmds_length_of_wf hwf) hbody hrx,
    answered_of_idle (hinv.waiting hm hf), List.headD_cons]

/-- Settles O18: a step leaves the buffer, empties it, or writes one cell inside it. -/
theorem noCellWrittenOutsideBuffer : Obligations.NoCellWrittenOutsideBuffer :=
  fun _ _ h _ _ hv => (step_bufferStep h).get? hv

/-- Settles O11: enabled, `rx_timeout` raises `E_TIMEOUT`, whose row has no reply; otherwise it is only consumed. -/
theorem timeoutDropsPartialPacket : Obligations.TimeoutDropsPartialPacket := by
  intro s rest henv
  rw [step_of_event henv, takeEvent]
  exact ⟨fun hen hm hf => congrArg _ (stepRxTimeout_of_enabled (s := { s with env := rest }) hen hm hf),
    fun hdis => congrArg _ (stepRxTimeout_of_disabled (s := { s with env := rest }) hdis)⟩

/-- Settles O12: no step is enabled. -/
theorem emptyStreamWaits : Obligations.EmptyStreamWaits := by
  intro s s' hturn hm hrx
  rw [step_of_blockTurn hturn, blockStep_of_empty hm hrx]

/-- Settles O13: `RX_LEN` on a length byte that fits the buffer and announces more bytes. -/
theorem lengthByteAccepted : Obligations.LengthByteAccepted := by
  intro s s' l rest hturn hm hf hrx hcap hl
  exact (step_of_turn_byte hturn hm hrx).trans (readByte_length hf hcap hl)

/-- Settles O14: `RX_LEN` completes the packet at once, and 0 is below `MIN_LEN`. -/
theorem zeroLengthPacketIsShort : Obligations.ZeroLengthPacketIsShort := by
  intro s s' rest hturn hm hf hrx
  rw [step_of_turn_byte hturn hm hrx, readByte_zero (s := { s' with rx := rest }) hf,
    completePacket_of_short (show (0 : Byte).toNat < Config.minLen by decide), rearm_raise _ (by decide)]
  simp [rearm, Cause.response, hf]

/-- Settles O15: `RX_LEN_OVERSIZE`. -/
theorem oversizeLengthByteStartsDrain : Obligations.OversizeLengthByteStartsDrain := by
  intro s s' l rest hturn hm hf hrx hover
  exact (step_of_turn_byte hturn hm hrx).trans (readByte_oversize hf hover)

/-- Settles O16: `RX_BODY` before the last byte and at it. -/
theorem bodyByteStored : Obligations.BodyByteStored := by
  intro s s' b rest hturn hm hf hrx hin
  rw [step_of_turn_byte hturn hm hrx]
  exact ⟨readByte_body (s := { s' with rx := rest }) hf hin, readByte_last (s := { s' with rx := rest }) hf hin⟩

/-- Settles O17: `RX_DRAIN` before the last byte, and at it, where `E_OVERSIZE` is raised. -/
theorem drainDiscardsThenRejects : Obligations.DrainDiscardsThenRejects := by
  intro s s' b rest hturn hm hf hrx
  rw [step_of_turn_byte hturn hm hrx]
  refine ⟨readByte_discard (s := { s' with rx := rest }) hf, fun hrem => ?_⟩
  rw [readByte_discard_last (s := { s' with rx := rest }) hf hrem, rearm_raise _ (by decide)]
  simp [rearm, Cause.response]

end Sys2Proof.Proofs
end

section
/-! PROOFS of the family `41_integrity_verifier.md`, the checksum: every turn of its loop is injective when the
polynomial's bit 0 is 1, so replacing one byte changes the checksum (R122, R123, R126). -/

namespace Sys2Proof.Machine

/-! ## One turn of the loop -/

/-- The bit shifted in is 0, so bit 0 tells whether the polynomial was added. -/
theorem crcShift_getLsbD_zero {poly : Word} (hpoly : poly.getLsbD 0 = true) (a : Word) :
    (crcShift poly a).getLsbD 0 = a.msb := by
  unfold crcShift
  cases hmsb : a.msb <;> simp [hpoly]

/-- The shift loses bit 31 only. -/
theorem eq_of_shiftLeft_one_eq {a b : Word} (hmsb : a.msb = b.msb) (hshift : a <<< 1 = b <<< 1) : a = b := by
  apply BitVec.eq_of_getElem_eq
  intro i hi
  by_cases htop : i = 31
  · simpa [htop, BitVec.msb_eq_getLsbD_last] using hmsb
  · have hbit := congrArg (BitVec.getLsbD · (i + 1)) hshift
    simpa [show i + 1 < 32 by omega] using hbit

/-- Bit 0 of the result says which branch was taken, and each branch can be undone. -/
theorem crcShift_injective {poly : Word} (hpoly : poly.getLsbD 0 = true) : Function.Injective (crcShift poly) := by
  intro a b h
  have hmsb : a.msb = b.msb := by rw [← crcShift_getLsbD_zero hpoly, h, crcShift_getLsbD_zero hpoly]
  refine eq_of_shiftLeft_one_eq hmsb ?_
  unfold crcShift at h
  rw [hmsb] at h
  cases hb : b.msb <;> simpa [hb] using h

/-- Nothing to add when bit 31 is clear. -/
theorem crcShift_of_msb_false {a : Word} (poly : Word) (h : a.msb = false) : crcShift poly a = a <<< 1 :=
  if_neg (by simp [h])

/-! ## The loop and the accumulation -/

theorem crcShifts_injective {poly : Word} (hpoly : poly.getLsbD 0 = true) (n : Nat) :
    Function.Injective (crcShifts poly n) := by
  induction n with
  | zero => exact Function.injective_id
  | succ n ih => exact ih.comp (crcShift_injective hpoly)

theorem crcShifts_zero (poly : Word) (n : Nat) : crcShifts poly n 0 = 0 := by
  induction n with
  | zero => rfl
  | succ n ih => rwa [crcShifts, crcShift_of_msb_false poly rfl]

/-- A single bit moves up to bit 31, and the turn after that replaces it by the polynomial. -/
theorem crcShifts_bit (poly : Word) {n k : Nat} (h : k + n = 31) :
    crcShifts poly (n + 1) (BitVec.twoPow 32 k) = poly := by
  induction n generalizing k with
  | zero =>
    obtain rfl : k = 31 := h
    exact BitVec.zero_xor
  | succ n ih =>
    have hmsb : (BitVec.twoPow 32 k).msb = false := by
      simp [BitVec.msb_twoPow, show k ≠ 31 by omega]
    have hshift : BitVec.twoPow 32 k <<< 1 = BitVec.twoPow 32 (k + 1) := by
      rw [BitVec.twoPow_eq, BitVec.twoPow_eq, BitVec.shiftLeft_add]
    rw [crcShifts, crcShift_of_msb_false poly hmsb, hshift, ih (by omega)]

/-- Neither the accumulator nor the word is lost in a step: from the result and the one, the other follows. -/
theorem crcStep_eq_iff {poly : Word} (hpoly : poly.getLsbD 0 = true) {acc acc' w w' : Word} :
    crcStep poly acc w = crcStep poly acc' w' ↔ acc ^^^ w = acc' ^^^ w' :=
  (crcShifts_injective hpoly 32).eq_iff

theorem crcRun_injective {poly : Word} (hpoly : poly.getLsbD 0 = true) (bs : List Byte) :
    Function.Injective (crcRun poly · bs) := by
  induction bs with
  | nil => exact Function.injective_id
  | cons b bs ih => exact fun acc acc' h => (BitVec.xor_left_inj _).mp ((crcStep_eq_iff hpoly).mp (ih h))

theorem crcRun_append (poly acc : Word) (xs ys : List Byte) :
    crcRun poly acc (xs ++ ys) = crcRun poly (crcRun poly acc xs) ys := by
  induction xs generalizing acc with
  | nil => rfl
  | cons x xs ih => exact ih (crcStep poly acc (x.setWidth 32))

/-- Of two sequences that differ in one byte at most, the checksum tells the byte (R126). -/
theorem crc32w_byte_inj {c : Config} (hpoly : c.crcPoly.getLsbD 0 = true) {pre post : List Byte} {b b' : Byte} :
    crc32w c (pre ++ b' :: post) = crc32w c (pre ++ b :: post) ↔ b' = b := by
  refine ⟨fun h => ?_, fun h => h ▸ rfl⟩
  rw [crc32w, crc32w, crcRun_append, crcRun_append] at h
  have hstep := crcRun_injective hpoly post h
  have hword := (BitVec.xor_right_inj _).mp ((crcStep_eq_iff hpoly).mp hstep)
  simpa using congrArg (BitVec.setWidth 8) hword

/-- A flipped bit makes another byte. -/
theorem xor_bit_ne (b : Byte) {k : Nat} (hk : k < 8) : b ^^^ BitVec.ofNat 8 (2 ^ k) ≠ b := by
  have hbit : BitVec.ofNat 8 (2 ^ k) ≠ 0#8 := by
    interval_cases k <;> decide
  rwa [Ne, ← BitVec.xor_zero (x := b), BitVec.xor_assoc, BitVec.xor_right_inj, BitVec.zero_xor]

end Sys2Proof.Machine
end

section
/-! PROOFS of the family `41_integrity_verifier.md`, one replaced byte: the decoder's checksum test on covered bytes and
checksum bytes, and the packet with another byte in one place (R76, R78, R126). -/

namespace Sys2Proof.Proofs

open Sys2Proof.Machine

/-- Comparing words is comparing their bytes on the wire (R52, R53). -/
theorem word32_eq_iff {o : ByteOrder} {b0 b1 b2 b3 : Byte} {w : Word} :
    word32 o b0 b1 b2 b3 = w ↔ [b0, b1, b2, b3] = bytes32 o w := by
  obtain ⟨hsplit, hjoin⟩ := splitAndAssembleAreInverse o
  obtain ⟨a0, a1, a2, a3, hbytes, rfl⟩ := hjoin w
  refine ⟨fun h => by rw [← h, hsplit], fun h => ?_⟩
  rw [hbytes] at h
  cases h
  rfl

theorem bytes32_injective (o : ByteOrder) : Function.Injective (bytes32 o) := by
  intro w w' h
  obtain ⟨b0, b1, b2, b3, hbytes, rfl⟩ := (splitAndAssembleAreInverse o).2 w
  exact word32_eq_iff.mpr (hbytes ▸ h)

/-- The bytes after the length byte `l` of a packet that fits the buffer, in two parts: the covered ones, the code at
least, and the four of the checksum (R70, R76). -/
def CutsInto (l : Byte) (covered check : List Byte) : Prop :=
  covered ≠ [] ∧ check.length = 4 ∧ l.toNat = covered.length + 4 ∧ l.toNat + 1 ≤ Config.rxCap

/-- A packet whose checksum bytes are not those of its covered bytes is refused for its checksum (R78). -/
theorem decode_badChecksum {c : Config} {l : Byte} {covered check : List Byte} (hcut : CutsInto l covered check)
    (hne : check ≠ bytes32 c.byteOrder (crc32w c (l :: covered))) :
    decode c (l :: (covered ++ check)) = .error .badChecksum := by
  obtain ⟨hcode, hfour, hl, hcap⟩ := hcut
  obtain ⟨code, p, rfl⟩ := List.exists_cons_of_ne_nil hcode
  match check, hfour with
  | [b0, b1, b2, b3], _ =>
    have hdecode := decode_fields (c := c) (code := code) (b0 := b0) (b1 := b1) (b2 := b2) (b3 := b3) [] hl hcap
    rw [if_neg (mt word32_eq_iff.mp hne), List.append_nil] at hdecode
    exact hdecode

/-- An accepted packet carries the checksum bytes of its covered bytes. -/
theorem checksum_of_decode {c : Config} {l : Byte} {body : List Byte} {i : Instr}
    (h : decode c (l :: body) = .ok (i, [])) :
    ∃ covered check, body = covered ++ check ∧ CutsInto l covered check ∧
      check = bytes32 c.byteOrder (crc32w c (l :: covered)) := by
  obtain ⟨l', code, p, b0, b1, b2, b3, hbytes, hl, hcap, hcrc, -⟩ := decode_cases h
  rw [List.append_nil] at hbytes
  obtain ⟨rfl, rfl⟩ := List.cons.inj hbytes
  exact ⟨code :: p, [b0, b1, b2, b3], rfl, ⟨List.cons_ne_nil _ _, rfl, hl, hcap⟩, word32_eq_iff.mp hcrc⟩

/-- R126: an accepted packet with any one byte after the length byte replaced by another is refused for its checksum. A
covered byte changes the checksum that is owed, a checksum byte the one that is given. -/
theorem decode_byte_replaced {c : Config} (hpoly : c.crcPoly.getLsbD 0 = true) {l b b' : Byte} {pre post : List Byte}
    {i : Instr} (hb : b' ≠ b) (h : decode c (l :: (pre ++ b :: post)) = .ok (i, [])) :
    decode c (l :: (pre ++ b' :: post)) = .error .badChecksum := by
  obtain ⟨covered, check, hbody, hcut, hcheck⟩ := checksum_of_decode h
  have hplace : (∃ mid, covered = pre ++ b :: mid ∧ post = mid ++ check) ∨
      ∃ mid, pre = covered ++ mid ∧ check = mid ++ b :: post := by
    rcases List.append_eq_append_iff.mp hbody with ⟨mid, hcov, hrest⟩ | hin
    · rcases List.cons_eq_append_iff.mp hrest with ⟨rfl, hchk⟩ | ⟨mid', rfl, hpost⟩
      · exact .inr ⟨[], by simpa using hcov.symm, hchk⟩
      · exact .inl ⟨mid', hcov, hpost⟩
    · exact .inr hin
  rcases hplace with ⟨mid, rfl, rfl⟩ | ⟨mid, rfl, rfl⟩
  · have hcut' : CutsInto l (pre ++ b' :: mid) check := by simpa [CutsInto] using hcut
    have hcrc : crc32w c (l :: pre ++ b' :: mid) ≠ crc32w c (l :: pre ++ b :: mid) := mt (crc32w_byte_inj hpoly).mp hb
    have hne : check ≠ bytes32 c.byteOrder (crc32w c (l :: (pre ++ b' :: mid))) :=
      fun e => hcrc (bytes32_injective _ (e.symm.trans hcheck))
    simpa using decode_badChecksum hcut' hne
  · have hcut' : CutsInto l covered (mid ++ b' :: post) := by simpa [CutsInto] using hcut
    have hne : mid ++ b' :: post ≠ bytes32 c.byteOrder (crc32w c (l :: covered)) := by
      rw [← hcheck]
      simpa using hb
    simpa using decode_badChecksum hcut' hne

end Sys2Proof.Proofs
end

section
/-! PROOFS of the family `41_integrity_verifier.md`: its obligations settled. -/

namespace Sys2Proof.Proofs

open Sys2Proof.Machine

/-- Settles O40: a flipped bit replaces one byte by another. -/
theorem singleBitFlipIsRefused : Obligations.SingleBitFlipIsRefused :=
  fun _ hpoly _ _ _ b _ _ hk h => decode_byte_replaced hpoly (xor_bit_ne b hk) h

/-- Settles O38: the comparison is with `crc32w` from a fresh accumulator, and each verification leaves a fresh one. -/
theorem verificationIsIsolated : Obligations.VerificationIsIsolated := by
  intro covered crc s
  refine ⟨fun hfresh => ?_, verify_state covered crc s, fun covered' crc' => ?_⟩
  · rw [verify_fresh hfresh, decide_eq_true_iff, eq_comm]
  · rw [verify_fresh (by rw [verify_state]), verify_state]
    exact decide_eq_decide.mpr eq_comm

/-- Settles O39: the checksum tells any one byte, so also a byte with a flipped bit. -/
theorem coveredBitFlipChangesChecksum : Obligations.CoveredBitFlipChangesChecksum :=
  fun _ hpoly _ _ b _ hk => mt (crc32w_byte_inj hpoly).mp (xor_bit_ne b hk)

/-- Settles O37: the step is the loop on the exclusive-or, which keeps 0 and carries the bit of 1 out of bit 31; the
example is computed. -/
theorem crcStepCorners : Obligations.CrcStepCorners := by
  refine ⟨fun poly acc acc' w w' h => congrArg (crcShifts poly 32) h, fun poly => ⟨?_, ?_⟩, by decide +kernel⟩
  · exact crcShifts_zero poly 32
  · exact crcShifts_bit poly (k := 0) rfl

end Sys2Proof.Proofs
end

section
/-! PROOFS of the family `42_dispatcher_response.md`, the last byte of a packet: the invariants name the packet it
completes, and the decoder says what the completion does (R140 to R143). -/

namespace Sys2Proof.Machine

/-! ## The packet in the buffer -/

/-- Cells that all hold a value hold the bytes of a list. -/
theorem Cells.exists_bytes {buf : List Host.Cell} {n : Nat} (h : ∀ i, i < n → (Cells.get? buf i).isSome) :
    ∃ bs : List Byte, bs.length = n ∧ ∀ i, i < n → Cells.get? buf i = bs[i]? := by
  refine ⟨(List.range n).map fun i => (Cells.get? buf i).getD 0, by simp, fun i hi => ?_⟩
  obtain ⟨v, hv⟩ := Option.isSome_iff_exists.mp (h i hi)
  simp [hi, hv]

/-- I4 of R44: with `rx_len` cells received, the next byte is the last of a whole packet. -/
theorem lastByteNext_of_inv {s : State} {b : Byte} {rest : List Byte} (h : Inv s) (hm : s.mode = .cmdLoop)
    (hf : s.fsm = .recv) (hrx : s.rx = b :: rest) (hcnt : s.rxCnt = s.rxLen.toNat) :
    ∃ pkt, pkt.getLast? = some b ∧ LastByteNext s pkt rest := by
  obtain ⟨-, -, hone, -, -, hzero, hheld, -⟩ := h.receiving hm hf
  obtain ⟨got, hlen, hcells⟩ := Cells.exists_bytes hheld
  obtain ⟨l, body, rfl⟩ : ∃ l body, got = l :: body :=
    List.exists_cons_of_ne_nil (List.ne_nil_of_length_pos (by omega))
  obtain rfl : s.rxLen = l := Option.some.inj (hzero.symm.trans (hcells 0 hone))
  have hbody : (body ++ [b]).length = s.rxLen.toNat := by
    rw [List.length_append, ← hcnt, ← hlen]
    rfl
  have hlast : (s.rxLen :: body ++ [b]).getLast? = some b := List.getLast?_concat
  refine ⟨s.rxLen :: body ++ [b], hlast, {
    loop := hm
    recv := hf
    whole := ⟨s.rxLen, body ++ [b], rfl, hbody⟩
    len := rfl
    nonzero := fun h0 => ?_
    cnt := hcnt
    cells := fun i hi => ?_
    next := ⟨b, hlast, hrx⟩
    crc := h.crc }⟩
  · rw [hcnt, h0] at hone
    exact absurd hone (by decide)
  · rw [hcells i hi, List.getElem?_append_left (by omega)]

/-! ## What its completion does -/

/-- A whole packet that decodes leaves no byte over (R72). -/
theorem decode_whole_rest {c : Config} {pkt rest : List Byte} {i : Instr} (hwhole : WholePacket pkt)
    (hdec : decode c pkt = .ok (i, rest)) : rest = [] := by
  obtain ⟨l, body, rfl, hbody⟩ := hwhole
  obtain ⟨l', code, p, b0, b1, b2, b3, hbytes, hl', -⟩ := decode_cases hdec
  obtain rfl : l = l' := (List.cons.inj hbytes).1
  have hlength := congrArg List.length hbytes
  simp only [List.length_append, List.length_cons, List.length_nil] at hlength
  exact List.eq_nil_of_length_eq_zero (by omega)

/-- R140: once its last byte is stored, a packet runs the command it decodes to, or raises the cause it is rejected
for. -/
theorem completePacket_received_cases {s : State} {pkt rest : List Byte} {b : Byte} (h : LastByteNext s pkt rest)
    (hb : pkt.getLast? = some b) (hcap : s.rxLen.toNat < Config.rxCap) :
    (∃ i, decode s.cfg pkt = .ok (i, []) ∧
      completePacket (received s b rest) = andThen (exec i (received s b rest)) fun u => .next (rearm u)) ∨
    (∃ c e, (c, e) ∈ [(Cause.short, DecodeError.short), (.crc, .badChecksum)] ∧ decode s.cfg pkt = .error e ∧
      completePacket (received s b rest) = .next (rearm (raise c (received s b rest)))) := by
  cases hdec : decode s.cfg pkt with
  | ok r =>
    obtain ⟨i, left⟩ := r
    obtain rfl := decode_whole_rest h.whole hdec
    exact .inl ⟨i, rfl, completePacket_received_of_decode h hb hcap hdec⟩
  | error e =>
    obtain ⟨l, body, rfl, hbody⟩ := h.whole
    obtain rfl : l = s.rxLen := Option.some.inj h.len
    have hcells := get?_received_of_lastByteNext h hb (hbody.trans h.cnt.symm)
    rw [h.cnt] at hcells
    have hrun := completePacket_decode (s := received s b rest) hbody hcap rfl h.crc hcells
    rw [show (received s b rest).cfg = s.cfg from rfl, hdec] at hrun
    rcases rejected_of_whole hbody hcap hdec with rfl | rfl
    · exact .inr ⟨.short, .short, by simp, rfl, hrun⟩
    · exact .inr ⟨.crc, .badChecksum, by simp, rfl, hrun⟩

/-- A packet rejected for its checksum has a length byte that fits the buffer (R78). -/
theorem rxLen_lt_rxCap_of_badChecksum {s : State} {pkt rest : List Byte} (h : LastByteNext s pkt rest)
    (hdec : decode s.cfg pkt = .error .badChecksum) : s.rxLen.toNat < Config.rxCap := by
  obtain ⟨l, body, rfl, -⟩ := h.whole
  obtain rfl : l = s.rxLen := Option.some.inj h.len
  by_contra hover
  rw [decode_cons, if_pos (by omega)] at hdec
  cases hdec

/-- R142: a wrong checksum raises `E_CRC`, whatever the command code. -/
theorem completePacket_received_of_badChecksum {s : State} {pkt rest : List Byte} {b : Byte}
    (h : LastByteNext s pkt rest) (hb : pkt.getLast? = some b) (hdec : decode s.cfg pkt = .error .badChecksum) :
    completePacket (received s b rest) = .next (rearm (raise .crc (received s b rest))) := by
  have hcap : s.rxLen.toNat < Config.rxCap := rxLen_lt_rxCap_of_badChecksum h hdec
  rcases completePacket_received_cases h hb hcap with ⟨i, hok, -⟩ | ⟨c, e, hc, he, hrun⟩
  · rw [hdec] at hok
    cases hok
  · obtain rfl := Except.error.inj (hdec.symm.trans he)
    obtain rfl : c = .crc := by simpa using hc
    exact hrun

end Sys2Proof.Machine
end

section
/-! PROOFS of the family `42_dispatcher_response.md`, progress: from a state that meets the invariants no part of a step
stops (R148, R213). -/

namespace Sys2Proof.Machine

/-- Whatever the last byte of a packet makes of it, its completion answers a next state, under R8 (e). -/
theorem completePacket_received_next {s : State} {pkt rest : List Byte} {b : Byte} (h : LastByteNext s pkt rest)
    (hb : pkt.getLast? = some b) (hcap : s.rxLen.toNat < Config.rxCap) (hsup : s.cfg.supportedCmds.length ≤ 255) :
    ∃ t, completePacket (received s b rest) = .next t := by
  rcases completePacket_received_cases h hb hcap with ⟨i, -, hrun⟩ | ⟨c, e, -, -, hrun⟩
  · obtain ⟨u, hu⟩ := exec_next i (received s b rest) hsup
    exact ⟨rearm u, by rw [hrun, hu, andThen_next]⟩
  · exact ⟨_, hrun⟩

/-- R44 keeps the reader off each of its stops: the buffer has room, the cells read hold values, a byte is left to
discard. -/
theorem readByte_next {s : State} (b : Byte) (h : Inv s) (hm : s.mode = .cmdLoop)
    (hsup : s.cfg.supportedCmds.length ≤ 255) : ∃ t, readByte b s = .next t := by
  cases hf : s.fsm with
  | waitLen =>
    by_cases hcap : b.toNat + 1 ≤ Config.rxCap
    · by_cases hb : b = 0
      · subst hb
        have hshort : (0 : Byte).toNat < Config.minLen := by decide
        exact ⟨_, (readByte_zero hf).trans (completePacket_of_short hshort)⟩
      · exact ⟨_, readByte_length hf hcap hb⟩
    · exact ⟨_, readByte_oversize hf (Nat.lt_of_not_le hcap)⟩
  | recv =>
    obtain ⟨-, hcap, -, hle, -⟩ := h.receiving hm hf
    have hin : s.rxCnt < Config.rxCap := Nat.lt_of_le_of_lt hle hcap
    by_cases hcnt : s.rxCnt = s.rxLen.toNat
    · have hbefore : Inv { s with rx := b :: s.rx } := inv_ports h (b :: s.rx) s.initOk s.bootSel s.env
      obtain ⟨pkt, hb, hlast⟩ := lastByteNext_of_inv hbefore hm hf rfl hcnt
      rw [readByte_last hf hin hcnt]
      exact (completePacket_received_next hlast hb hcap hsup :)
    · exact ⟨_, readByte_body hf hin hcnt⟩
  | drain =>
    obtain ⟨-, hleft, -⟩ := h.draining hm hf
    rcases Nat.eq_or_lt_of_le hleft with hrem | hrem
    · exact ⟨_, readByte_discard_last hf hrem.symm⟩
    · exact ⟨_, readByte_discard hf hrem⟩

theorem blockStep_next {s : State} (h : Inv s) (hsup : s.cfg.supportedCmds.length ≤ 255) :
    ∃ t, blockStep s = .next t := by
  cases hm : s.mode with
  | reset => exact ⟨_, blockStep_of_reset hm⟩
  | cmdLoop =>
    cases hrx : s.rx with
    | nil => exact ⟨_, blockStep_of_empty hm hrx⟩
    | cons b rest =>
      rw [blockStep_of_byte hm hrx]
      exact readByte_next b (inv_ports h rest s.initOk s.bootSel s.env) hm hsup
  | appJump => exact ⟨_, blockStep_of_terminal (.inl hm)⟩
  | halt => exact ⟨_, blockStep_of_terminal (.inr hm)⟩

/-- Of the events only the block's turn can stop. -/
theorem takeEvent_next {s : State} (e : EnvEvent) (h : Inv s) (hsup : s.cfg.supportedCmds.length ≤ 255) :
    ∃ t, takeEvent e s = .next t := by
  cases e with
  | block => exact blockStep_next h hsup
  | _ => exact ⟨_, rfl⟩

end Sys2Proof.Machine
end

section
/-! PROOFS of the family `42_dispatcher_response.md`, disclosure: what leaves the block comes from a verified command
(R149), and without a `MemRead` nothing depends on `MEM` (R43). -/

namespace Sys2Proof.Machine

/-! ## A `MemRead` or an Acknowledge -/

/-- From `s` to `t` a `MemRead` is recorded or an Acknowledge pushed. -/
def Discloses (s t : State) : Prop := t.reads ≠ s.reads ∨ ∃ p, t.tx = s.tx ++ ackBytes p

/-- The reply of a policy is never an Acknowledge (R80, R81). -/
theorem policyReply_ne_ackBytes (r : Response) (p : List Byte) : policyReply r ≠ ackBytes p := by
  cases r <;> simp [policyReply, ackBytes, Config.nackMark, Config.ackMark]

/-- An error path discloses nothing. -/
theorem not_discloses_of_policyReply {s t : State} (r : Response) (hreads : t.reads = s.reads)
    (htx : t.tx = s.tx ++ policyReply r) : ¬ Discloses s t := by
  rintro (hread | ⟨p, hack⟩)
  · exact hread hreads
  · exact policyReply_ne_ackBytes r p (List.append_cancel_left (htx.symm.trans hack))

theorem not_discloses_of_eq {s t : State} (hreads : t.reads = s.reads) (htx : t.tx = s.tx) : ¬ Discloses s t :=
  not_discloses_of_policyReply .silent hreads (htx.trans (List.append_nil _).symm)

theorem not_discloses_rearm_raise {c : Cause} (s : State) (hc : c ≠ .init ∧ c ≠ .badSp) :
    ¬ Discloses s (rearm (raise c s)) := by
  rw [rearm_raise s hc]
  exact not_discloses_of_policyReply (c.response s.cfg) rfl rfl

/-- Of the handlers only the four implemented ones disclose anything (R160 to R163, R168, R178). -/
theorem implemented_of_discloses {i : Instr} {s t : State} (h : exec i s = .next t) (hd : Discloses s t) :
    ∃ p, i ∈ [Instr.getVer p, .getHelp p, .getCid p, .getRdp p] := by
  rw [exec_cases h] at hd
  cases i with
  | getVer p => exact ⟨p, by simp⟩
  | getHelp p => exact ⟨p, by simp⟩
  | getCid p => exact ⟨p, by simp⟩
  | getRdp p => exact ⟨p, by simp⟩
  | unknown code p =>
    exact absurd hd (not_discloses_of_policyReply s.cfg.unknownCmdResponse (List.append_nil _) rfl)
  | _ p => exact absurd hd (not_discloses_of_policyReply s.cfg.reservedCmdResponse (List.append_nil _) rfl)

/-- R149: a completed packet that discloses anything decoded to one of the four implemented commands. -/
theorem decoded_of_discloses {s t : State} {pkt rest : List Byte} {b : Byte} (h : LastByteNext s pkt rest)
    (hb : pkt.getLast? = some b) (hcap : s.rxLen.toNat < Config.rxCap)
    (hp : completePacket (received s b rest) = .next t) (hd : Discloses s t) :
    ∃ i p, decode s.cfg pkt = .ok (i, []) ∧ i ∈ [Instr.getVer p, .getHelp p, .getCid p, .getRdp p] := by
  rcases completePacket_received_cases h hb hcap with ⟨i, hdec, hrun⟩ | ⟨c, e, hc, -, hrun⟩ <;> rw [hrun] at hp
  · obtain ⟨u, hu, hrearm⟩ := andThen_eq_next.mp hp
    obtain rfl := Host.Outcome.next.inj hrearm
    obtain ⟨p, hi⟩ := implemented_of_discloses hu hd
    exact ⟨i, p, hdec, hi⟩
  · obtain rfl := Host.Outcome.next.inj hp
    have hpacket : c ≠ .init ∧ c ≠ .badSp := by
      simp only [List.mem_cons, Prod.mk.injEq, List.not_mem_nil, or_false] at hc
      rcases hc with ⟨rfl, -⟩ | ⟨rfl, -⟩ <;> decide
    exact absurd hd (not_discloses_rearm_raise (received s b rest) hpacket)

/-- Of the reader's steps only the one that takes the last byte of a packet can disclose anything. -/
theorem lastByte_of_readByte_discloses {b : Byte} {s t : State} (h : readByte b s = .next t) (hd : Discloses s t) :
    s.fsm = .recv ∧ s.rxCnt < Config.rxCap ∧ s.rxCnt = s.rxLen.toNat ∧
      completePacket (received s b s.rx) = .next t := by
  rcases readByte_cases h with ⟨-, -, -, rfl⟩ | ⟨-, -, hp⟩ | ⟨-, -, rfl⟩ | ⟨-, -, -, rfl⟩ | hlast | ⟨-, -, rfl⟩ |
    ⟨-, -, rfl⟩
  · exact absurd hd (not_discloses_of_eq rfl rfl)
  · rw [completePacket_of_short (show (0 : Byte).toNat < Config.minLen by decide)] at hp
    obtain rfl := Host.Outcome.next.inj hp
    exact absurd hd (not_discloses_rearm_raise (c := .short) _ (by decide) :)
  · exact absurd hd (not_discloses_of_eq rfl rfl)
  · exact absurd hd (not_discloses_of_eq rfl rfl)
  · exact hlast
  · exact absurd hd (not_discloses_of_eq rfl rfl)
  · exact absurd hd (not_discloses_rearm_raise (c := .oversize) _ (by decide) :)

/-! ## No step without a `MemRead` looks at `MEM` -/

/-- The same state with another `MEM`. -/
def State.withMem (m : List Host.Cell) (s : State) : State := { s with mem := m }

/-- A part of a step that, where it answers a next state and records no `MemRead`, does the same under any other `MEM`
and leaves that `MEM` alone. -/
def MemBlind (f : State → Out) : Prop :=
  ∀ m s t, f s = .next t → t.reads = s.reads → f (s.withMem m) = .next (t.withMem m)

theorem acknowledge_withMem (code : Byte) (p : List Byte) {s t : State} (m : List Host.Cell)
    (h : acknowledge code p s = .next t) : acknowledge code p (s.withMem m) = .next (t.withMem m) := by
  obtain ⟨hfits, rfl⟩ := acknowledge_cases h
  exact acknowledge_fits code (s.withMem m) hfits

theorem raise_withMem (c : Cause) (m : List Host.Cell) (s : State) : raise c (s.withMem m) = (raise c s).withMem m := by
  cases c <;> simp only [raise, raisePacket_eq] <;> rfl

theorem rearm_raise_withMem (c : Cause) (m : List Host.Cell) (s : State) :
    rearm (raise c (s.withMem m)) = (rearm (raise c s)).withMem m :=
  congrArg rearm (raise_withMem c m s)

theorem raise_next_withMem {c : Cause} {s t : State} (m : List Host.Cell)
    (h : Host.Outcome.next (raise c s) = (.next t : Out)) :
    Host.Outcome.next (raise c (s.withMem m)) = (.next (t.withMem m) : Out) := by
  obtain rfl := Host.Outcome.next.inj h
  exact congrArg _ (raise_withMem c m s)

/-- A command that records no read is none of the two that answer from `MEM`. -/
theorem exec_memBlind (i : Instr) : MemBlind (exec i) := by
  intro m s t h hreads
  have hnone : instrReads s.cfg i = [] := by
    rw [exec_cases h] at hreads
    exact List.append_right_eq_self.mp hreads
  cases i with
  | getVer p => exact acknowledge_withMem s.cfg.codes.getVer [s.cfg.blVersion] m h
  | getHelp p => exact acknowledge_withMem s.cfg.codes.getHelp s.cfg.supportedCmds m h
  | getCid p => cases hnone
  | getRdp p => cases hnone
  | unknown code p => exact raise_next_withMem m h
  | _ p => exact raise_next_withMem m h

theorem runPacket_memBlind (f : Fields) : MemBlind (runPacket f) := by
  intro m s t h hreads
  cases hv : (verify f.covered f.hostCrc s).1 with
  | true =>
    rw [runPacket_of_verified hv] at h
    rw [runPacket_of_verified (s := s.withMem m) hv]
    exact exec_memBlind _ m { s with crcAcc := s.cfg.crcInit } t h hreads
  | false =>
    rw [runPacket_of_not_verified hv] at h
    rw [runPacket_of_not_verified (s := s.withMem m) hv]
    exact raise_next_withMem (s := { s with crcAcc := s.cfg.crcInit }) m h

theorem completePacket_memBlind : MemBlind completePacket := by
  intro m s t h hreads
  by_cases hl : s.rxLen.toNat < Config.minLen
  · rw [completePacket_of_short hl] at h
    obtain rfl := Host.Outcome.next.inj h
    rw [completePacket_of_short (s := s.withMem m) hl, rearm_raise_withMem]
  · cases hf : readFields s.cfg.byteOrder s.rxBuf s.rxLen.toNat with
    | error r =>
      rw [completePacket_of_error hl hf] at h
      cases h
    | ok f =>
      rw [completePacket_of_fields hl hf] at h
      obtain ⟨u, hu, hrearm⟩ := andThen_eq_next.mp h
      obtain rfl := Host.Outcome.next.inj hrearm
      rw [completePacket_of_fields (s := s.withMem m) hl hf, runPacket_memBlind f m s u hu hreads]
      rfl

theorem readByte_memBlind (b : Byte) : MemBlind (readByte b) := by
  intro m s t h hreads
  have hfsm : (s.withMem m).fsm = s.fsm := rfl
  rcases readByte_cases h with ⟨hf, hcap, hb, rfl⟩ | ⟨hf, rfl, hp⟩ | ⟨hf, hcap, rfl⟩ | ⟨hf, hin, hcnt, rfl⟩ |
    ⟨hf, hin, hcnt, hp⟩ | ⟨hf, hrem, rfl⟩ | ⟨hf, hrem, rfl⟩ <;> rw [hf] at hfsm
  · exact readByte_length hfsm hcap hb
  · exact (readByte_zero hfsm).trans (completePacket_memBlind m _ t hp hreads)
  · exact readByte_oversize hfsm hcap
  · exact readByte_body hfsm hin hcnt
  · exact (readByte_last hfsm hin hcnt).trans (completePacket_memBlind m _ t hp hreads)
  · exact readByte_discard hfsm hrem
  · rw [readByte_discard_last hfsm hrem, ← rearm_raise_withMem]
    rfl

/-- A boot step that records no read has not come to the Application Vector (R192). -/
theorem stepBoot_withMem {s : State} (m : List Host.Cell) (hreads : (stepBoot s).reads = s.reads) :
    stepBoot (s.withMem m) = (stepBoot s).withMem m := by
  rcases stepBoot_cases s with ⟨hi, e⟩ | ⟨hi, hb, e⟩ | ⟨-, -, -, e⟩ | ⟨-, -, -, e⟩ <;> rw [e] at hreads ⊢
  · exact if_pos hi
  · simp [stepBoot, State.withMem, hi, hb, State.addTrace]
  · simp at hreads
  · simp at hreads

theorem blockStep_memBlind : MemBlind blockStep := by
  intro m s t h hreads
  rcases blockStep_cases h with ⟨hm, rfl⟩ | ⟨hm, hrx, rfl⟩ | ⟨hm, b, rest, hrx, hb⟩ | ⟨hm, rfl⟩
  · rw [blockStep_of_reset (s := s.withMem m) hm, stepBoot_withMem m hreads]
  · exact blockStep_of_empty hm hrx
  · exact (blockStep_of_byte (s := s.withMem m) hm hrx).trans (readByte_memBlind b m { s with rx := rest } t hb hreads)
  · exact blockStep_of_terminal hm

/-! ## `mode` -/

/-- R148: of the block's own steps only the boot step writes `mode`. -/
theorem blockStep_mode {s t : State} (h : blockStep s = .next t) : s.mode = .reset ∨ t.mode = s.mode := by
  rcases blockStep_cases h with ⟨hm, -⟩ | ⟨-, -, rfl⟩ | ⟨-, b, rest, -, hb⟩ | ⟨-, rfl⟩
  · exact .inl hm
  · exact .inr rfl
  · exact .inr (readByte_readerWrites hb).mode
  · exact .inr rfl

theorem stepRxTimeout_mode (s : State) : (stepRxTimeout s).mode = s.mode := by
  rcases stepRxTimeout_cases s with e | e <;> rw [e]
  rfl

end Sys2Proof.Machine
end

section
/-! PROOFS of the family `42_dispatcher_response.md`: its obligations settled. -/

namespace Sys2Proof.Proofs

open Sys2Proof.Machine

/-- Settles O47: an outside event always answers, and the invariants keep the block's own step off each stop. -/
theorem stepNeverStops : Obligations.StepNeverStops := by
  intro s h hwf
  have hsup : s.cfg.supportedCmds.length ≤ 255 := supportedCmds_length_of_wf hwf
  cases henv : s.env with
  | nil =>
    rw [step_of_blockTurn (.inl ⟨henv, rfl⟩)]
    exact blockStep_next h hsup
  | cons e rest =>
    rw [step_of_event henv]
    exact takeEvent_next e (inv_ports h s.rx s.initOk s.bootSel rest) hsup

/-- Settles O22: the completion raises `E_CRC`, whose row of R210 is the one byte `7F` under every policy. -/
theorem checksumFailureAnswersNack : Obligations.ChecksumFailureAnswersNack := by
  intro s s' pkt rest hturn hlast hdec
  obtain ⟨b, hb, -⟩ := hlast.next
  rw [step_of_blockTurn hturn, blockStep_of_lastByteNext hlast hb (rxLen_lt_rxCap_of_badChecksum hlast hdec),
    completePacket_received_of_badChecksum hlast hb hdec, rearm_raise _ (by decide)]
  simp [rearm, received, Cause.response, policyReply, policyLabel, Config.nackMark]

/-- Settles O48: the reader and the ports leave `mode` alone. -/
theorem modeChangesOnlyByBootOrReset : Obligations.ModeChangesOnlyByBootOrReset := by
  intro s t h hne
  rcases step_cases h with ⟨s', hturn, hblock⟩ | ⟨b, rest, -, rfl⟩ | ⟨l, rest, henv, rfl⟩ | ⟨rest, -, rfl⟩ |
    ⟨v, rest, -, rfl⟩ | ⟨v, rest, -, rfl⟩
  · have hmode : s'.mode = s.mode := by rw [(blockTurn_frame hturn).1]
    rcases blockStep_mode hblock with hreset | hsame
    · exact .inl ⟨hmode ▸ hreset, s', hturn⟩
    · exact absurd (hsame.trans hmode) hne
  · exact absurd rfl hne
  · exact .inr ⟨l, rest, henv, rfl⟩
  · exact absurd (stepRxTimeout_mode { s with env := rest }) hne
  · exact absurd rfl hne
  · exact absurd rfl hne

/-- Settles O52: only the last byte of a packet discloses, the invariants say which packet that is, and its completion
discloses only after decoding it. -/
theorem disclosureOnlyAfterVerification : Obligations.DisclosureOnlyAfterVerification := by
  intro s s' t hinv hturn hm h hd
  have hinv' : Inv s' := inv_of_blockTurn hturn hinv
  rw [step_of_blockTurn hturn] at h
  cases hrx : s'.rx with
  | nil =>
    rw [blockStep_of_empty hm hrx] at h
    obtain rfl := Host.Outcome.next.inj h
    exact absurd hd (not_discloses_of_eq rfl rfl)
  | cons b rest =>
    rw [blockStep_of_byte hm hrx] at h
    obtain ⟨hf, hin, hcnt, hp⟩ := lastByte_of_readByte_discloses h hd
    obtain ⟨pkt, hb, hlast⟩ := lastByteNext_of_inv hinv' hm hf hrx hcnt
    have hcap : s'.rxLen.toNat < Config.rxCap := hcnt ▸ hin
    obtain ⟨i, p, hdec, hi⟩ := decoded_of_discloses hlast hb hcap hp hd
    exact ⟨pkt, rest, i, p, hlast, hdec, hi⟩

/-- Settles O53: `MEM` is looked at only where a `MemRead` is recorded. -/
theorem noReadNoDisclosure : Obligations.NoReadNoDisclosure := by
  intro s t m henv h hreads
  rw [step_of_blockTurn (.inl ⟨henv, rfl⟩)] at h
  exact (step_of_blockTurn (s := s.withMem m) (.inl ⟨henv, rfl⟩)).trans (blockStep_memBlind m s t h hreads)

/-- Settles O21: the length test of the completion comes before everything else. -/
theorem shortPacketRejected : Obligations.ShortPacketRejected := by
  intro s s' b rest hturn hm hf hrx hcnt hshort
  have hin : s'.rxCnt < Config.rxCap := by
    rw [hcnt, Config.rxCap]
    omega
  calc step s
    _ = completePacket (received s' b rest) :=
        (step_of_turn_byte hturn hm hrx).trans (readByte_last (s := { s' with rx := rest }) hf hin hcnt)
    _ = .next (rearm (raise .short (received s' b rest))) := completePacket_of_short hshort
    _ = _ := by
      rw [rearm_raise _ (by decide)]
      simp [rearm, received, Cause.response]

/-- Settles O24: the two forms of R82. -/
theorem encoderPushesTwoForms : Obligations.EncoderPushesTwoForms := by
  intro s p
  refine ⟨fun hfits => ?_, rfl⟩
  rw [sendAck_fits s hfits, List.append_assoc]
  rfl

end Sys2Proof.Proofs
end

section
/-! PROOFS of the family `43_command_handlers.md`, handlers: each as its shared operation, and what its reply holds. -/

namespace Sys2Proof.Machine

/-! ## The four implemented commands -/

/-- The handler of `GET_VER` acknowledges with the version byte (R160). -/
theorem exec_getVer (p : List Byte) (s : State) :
    exec (.getVer p) s = acknowledge s.cfg.codes.getVer [s.cfg.blVersion] s := rfl

/-- The handler of `GET_CID` reads one word and acknowledges with its twelve bits (R162). -/
theorem exec_getCid (p : List Byte) (s : State) :
    exec (.getCid p) s =
      acknowledge s.cfg.codes.getCid
        (bytes16 s.cfg.byteOrder (((Memory.word s.mem s.cfg.chipIdAddr).extractLsb' 0 12).setWidth 16))
        (s.memRead s.cfg.chipIdAddr).2 := rfl

/-- The handler of `GET_RDP` reads one word and acknowledges with one of its bytes (R163). -/
theorem exec_getRdp (p : List Byte) (s : State) :
    exec (.getRdp p) s =
      acknowledge s.cfg.codes.getRdp [byteOf (Memory.word s.mem s.cfg.optionByteAddr) s.cfg.rdpByteIndex.val]
        (s.memRead s.cfg.optionByteAddr).2 := rfl

/-- A byte of a word is its digit in base 256 (R11). -/
theorem byteOf_eq_digit (w : Word) (k : Nat) : byteOf w k = BitVec.ofNat 8 (w.toNat / 256 ^ k % 256) := by
  have hpow : 2 ^ (8 * k) = 256 ^ k := pow_mul 2 8 k
  apply BitVec.eq_of_toNat_eq
  rw [byteOf_toNat, hpow, BitVec.toNat_ofNat]
  exact (Nat.mod_mod _ _).symm

/-- The two bytes of the zero-extended identifier are the digits of R162, in either order. -/
theorem bytes16_chipId (o : ByteOrder) (w : Word) :
    bytes16 o ((w.extractLsb' 0 12).setWidth 16) = chipIdBytes o w := by
  have hlow : ((w.extractLsb' 0 12).setWidth 16).extractLsb' 0 8 = BitVec.ofNat 8 (w.toNat % 256) := by
    apply BitVec.eq_of_toNat_eq
    simp only [BitVec.extractLsb'_toNat, BitVec.toNat_setWidth, BitVec.toNat_ofNat, Nat.shiftRight_eq_div_pow]
    omega
  have hhigh : ((w.extractLsb' 0 12).setWidth 16).extractLsb' 8 8 = BitVec.ofNat 8 (w.toNat / 256 % 16) := by
    apply BitVec.eq_of_toNat_eq
    simp only [BitVec.extractLsb'_toNat, BitVec.toNat_setWidth, BitVec.toNat_ofNat, Nat.shiftRight_eq_div_pow]
    omega
  cases o <;> simp only [bytes16, chipIdBytes, hlow, hhigh]

theorem chipIdBytes_length (o : ByteOrder) (w : Word) : (chipIdBytes o w).length = 2 := by
  cases o <;> rfl

/-- An implemented command that completes pushes one Acknowledge of the size R166 documents. The size fits `follow_len`
(R80): the list's because the command completed, the others by their value. -/
theorem ackBytes_of_size {p : List Byte} {s t : State} {i : Instr} {n : Nat}
    (hi : (i, n) ∈ [(Instr.getVer p, 1), (.getHelp p, s.cfg.supportedCmds.length), (.getCid p, 2), (.getRdp p, 1)])
    (h : exec i s = .next t) : ∃ q, t.tx = s.tx ++ ackBytes q ∧ q.length = n ∧ n ≤ 255 := by
  simp only [List.mem_cons, List.not_mem_nil, or_false, Prod.mk.injEq] at hi
  rw [exec_cases h]
  rcases hi with ⟨rfl, rfl⟩ | ⟨rfl, rfl⟩ | ⟨rfl, rfl⟩ | ⟨rfl, rfl⟩
  · exact ⟨_, rfl, rfl, by decide⟩
  · exact ⟨_, rfl, rfl, supportedCmds_length_of_exec h⟩
  · exact ⟨_, rfl, bytes16_length _ _, by decide⟩
  · exact ⟨_, rfl, rfl, by decide⟩

theorem ackBytes_of_implemented {p : List Byte} {s t : State} {i : Instr}
    (hi : i ∈ [Instr.getVer p, .getHelp p, .getCid p, .getRdp p]) (h : exec i s = .next t) :
    ∃ q, t.tx = s.tx ++ ackBytes q := by
  obtain ⟨n, hn⟩ : ∃ n,
      (i, n) ∈ [(Instr.getVer p, 1), (.getHelp p, s.cfg.supportedCmds.length), (.getCid p, 2), (.getRdp p, 1)] := by
    simpa [exists_or] using hi
  obtain ⟨q, hq, -⟩ := ackBytes_of_size hn h
  exact ⟨q, hq⟩

/-- A command presents at most one address on `read_word` (R167). -/
theorem instrReads_cases (c : Config) (i : Instr) : instrReads c i = [] ∨ ∃ a, instrReads c i = [a] := by
  cases i with
  | getCid => exact .inr ⟨_, rfl⟩
  | getRdp => exact .inr ⟨_, rfl⟩
  | _ => exact .inl rfl

/-! ## The commands that raise an error -/

/-- Each reserved command raises `E_RESERVED` and does nothing else (R168). -/
theorem exec_reserved {p : List Byte} {i : Instr} (s : State)
    (h : i ∈ [Instr.goToAddr p, .flashErase p, .memWrite p, .enRwProtect p, .memRead p, .readSectorStatus p, .otpRead p,
      .disRwProtect p]) : exec i s = .next (raisePacket .reserved s) := by
  simp only [List.mem_cons, List.not_mem_nil, or_false] at h
  rcases h with rfl | rfl | rfl | rfl | rfl | rfl | rfl | rfl <;> rfl

/-- An unknown command raises `E_UNKNOWN` and does nothing else (R178). -/
theorem exec_unknown (code : Byte) (p : List Byte) (s : State) :
    exec (.unknown code p) s = .next (raisePacket .unknown s) := rfl

theorem raisePacket_of_nack {c : Cause} {s : State} (h : c.response s.cfg = .nack) :
    raisePacket c s = { s with tx := s.tx ++ [0x7F], trace := s.trace ++ [.nack c] } := by
  rw [raisePacket_eq, h]
  rfl

theorem raisePacket_of_silent {c : Cause} {s : State} (h : c.response s.cfg = .silent) :
    raisePacket c s = { s with trace := s.trace ++ [.drop c] } := by
  rw [raisePacket_eq, h]
  simp only [policyReply, policyLabel, List.append_nil]

end Sys2Proof.Machine
end

section
/-! PROOFS of the family `43_command_handlers.md`: its obligations settled. -/

namespace Sys2Proof.Proofs

open Sys2Proof.Machine

/-- Settles O27: one `MemRead`, then the Acknowledge of the twelve bits as the digits R162 names. -/
theorem getCidAnswersIdentifier : Obligations.GetCidAnswersIdentifier := by
  intro p s
  rw [exec_getCid, bytes16_chipId, acknowledge_fits _ _ (by simp [chipIdBytes_length]), ackBytes, chipIdBytes_length,
    List.append_assoc]
  rfl

/-- Settles O28: one `MemRead`, then the Acknowledge of the word's digit at `RDP_BYTE_INDEX`. -/
theorem getRdpAnswersProtectionByte : Obligations.GetRdpAnswersProtectionByte := by
  intro p s
  rw [exec_getRdp, acknowledge_fits _ _ (by simp), byteOf_eq_digit]
  rfl

/-- Settles O31: a command writes its reply, its label and its reads, of which there is at most one. -/
theorem commandsChangeOnlyReplyAndRecords : Obligations.CommandsChangeOnlyReplyAndRecords := by
  intro i s t h
  have hack : ∀ p, i ∈ [Instr.getVer p, .getHelp p, .getCid p, .getRdp p] → ∃ q, t.tx = s.tx ++ ackBytes q :=
    fun _ hi => ackBytes_of_implemented hi h
  have hreads : t.reads = s.reads ++ instrReads s.cfg i := congrArg State.reads (exec_cases h)
  refine ⟨by simp [exec_cases h], fun _ => by rw [exec_cases h], ?_, ⟨_, congrArg State.trace (exec_cases h)⟩,
    ⟨_, congrArg State.tx (exec_cases h)⟩, hack⟩
  rcases instrReads_cases s.cfg i with hnone | ⟨a, hone⟩
  · exact .inl (by rw [hreads, hnone, List.append_nil])
  · exact .inr ⟨a, by rw [hreads, hone]⟩

/-- Settles O32: what a completed command pushes is the Acknowledge of its documented size. -/
theorem positiveRepliesHaveFixedSizes : Obligations.PositiveRepliesHaveFixedSizes := by
  intro p s t i n hi h
  obtain ⟨q, htx, hlen, hfits⟩ := ackBytes_of_size hi h
  exact ⟨q, by rw [htx, ackBytes, hlen]; rfl, hlen, hfits⟩

/-- Settles O25: the Acknowledge of one byte always fits. -/
theorem getVerAnswersVersion : Obligations.GetVerAnswersVersion := by
  intro p s
  rw [exec_getVer, acknowledge_fits _ _ (by simp)]
  rfl

/-- Settles O26: under R8 (e) the Acknowledge of the whole list fits. -/
theorem getHelpAnswersCommandSet : Obligations.GetHelpAnswersCommandSet := by
  intro p s hfits
  rw [exec_getHelp, acknowledge_fits _ _ hfits, List.append_assoc]
  rfl

/-- Settles O29: the eight arms raise one cause, answered by its policy. -/
theorem reservedCommandsRaiseReserved : Obligations.ReservedCommandsRaiseReserved := by
  intro p s i hi
  rw [exec_reserved s hi]
  exact ⟨fun h => congrArg Host.Outcome.next (raisePacket_of_nack h),
    fun h => congrArg Host.Outcome.next (raisePacket_of_silent h)⟩

/-- Settles O30: the last arm raises its cause, answered by its policy. -/
theorem unknownCommandRaisesUnknown : Obligations.UnknownCommandRaisesUnknown := by
  intro code p s
  rw [exec_unknown]
  exact ⟨fun h => congrArg Host.Outcome.next (raisePacket_of_nack h),
    fun h => congrArg Host.Outcome.next (raisePacket_of_silent h)⟩

end Sys2Proof.Proofs
end

section
/-! PROOFS of the family `44_boot_handoff.md`, the boot step and what comes after it: one equation for each outcome of the
boot step, what a step can do outside the command loop, and the induction over a run without `rst`. -/

namespace Sys2Proof.Machine

/-! ## The boot step, one rule for each outcome -/

/-- R190: on the block's turn before the boot decision a step is the boot step. -/
theorem step_of_turn_reset {s s' : State} (hturn : BlockTurn s s') (hm : s'.mode = .reset) :
    step s = .next (stepBoot s') := by
  rw [step_of_blockTurn hturn, blockStep_of_reset hm]

/-- R191: without `init_ok` nothing else is looked at. -/
theorem stepBoot_of_init_failed {s : State} (hi : s.initOk = false) : stepBoot s = raiseHalt .init s := by
  rw [stepBoot, if_pos hi, raise]

/-- R193: `boot_sel` asserted. -/
theorem stepBoot_of_asserted {s : State} (hi : s.initOk = true) (hb : s.bootSel = true) :
    stepBoot s = { s with mode := .cmdLoop, fsm := .waitLen, trace := s.trace ++ [.bootCmdLoop] } := by
  simp [stepBoot, hi, hb, State.addTrace]

/-- R198: `boot_sel` not asserted and the first word rejected. -/
theorem stepBoot_of_rejected {s : State} (hi : s.initOk = true) (hb : s.bootSel = false)
    (hv : s.cfg.spValid (Memory.word s.mem s.cfg.appBase) = false) :
    stepBoot s = raiseHalt .badSp (s.memRead s.cfg.appBase).2 := by
  simp [stepBoot, hi, hb, hv, State.memRead, raise]

/-- R194 to R197: `boot_sel` not asserted and the first word accepted. -/
theorem stepBoot_of_accepted {s : State} (hi : s.initOk = true) (hb : s.bootSel = false)
    (hv : s.cfg.spValid (Memory.word s.mem s.cfg.appBase) = true) :
    stepBoot s = handOff (Memory.word s.mem s.cfg.appBase) (Memory.word s.mem (s.cfg.appBase + 4))
      { s with reads := s.reads ++ [s.cfg.appBase, s.cfg.appBase + 4] } := by
  simp [stepBoot, hi, hb, hv, State.memRead]

/-- R201: the boot step pushes nothing. -/
theorem stepBoot_tx (s : State) : (stepBoot s).tx = s.tx := by rw [stepBoot_frame]

/-! ## `boot_sel` is read by the boot step only -/

theorem readByte_withBootSel {b : Byte} {s t : State} (v : Bool) (h : readByte b s = .next t) :
    readByte b { s with bootSel := v } = .next { t with bootSel := v } := by
  have hports : t.ports = s.ports := by
    rw [readByte_readerWrites h]
    rfl
  have ht : t.withPorts { s.ports with bootSel := v } = { t with bootSel := v } := by
    rw [← hports]
    rfl
  rw [← ht]
  exact readByte_portBlind b { s.ports with bootSel := v } s t h

/-- Once the boot decision is taken, the level of `boot_sel` has no effect on the block's step (R192). -/
theorem blockStep_withBootSel {s t : State} (v : Bool) (hm : s.mode ≠ .reset) (h : blockStep s = .next t) :
    blockStep { s with bootSel := v } = .next { t with bootSel := v } := by
  rcases blockStep_cases h with ⟨hreset, -⟩ | ⟨hloop, hrx, rfl⟩ | ⟨hloop, b, rest, hrx, hb⟩ | ⟨hend, rfl⟩
  · exact absurd hreset hm
  · exact blockStep_of_empty hloop hrx
  · rw [blockStep_of_byte (s := { s with bootSel := v }) hloop hrx]
    exact readByte_withBootSel v hb
  · exact blockStep_of_terminal hend

/-! ## What a step can do outside the command loop -/

/-- No reset is to come (R199, R200). -/
def NoReset (s : State) : Prop := ∀ l, EnvEvent.rst l ∉ s.env

/-- From `s` to `t` only the outside agents wrote, and what they did to `rx` is to append (R21, R34). -/
def PortsOnly (s t : State) : Prop := ∃ p : Ports, t = s.withPorts p ∧ s.rx <+: p.rx

theorem PortsOnly.refl (s : State) : PortsOnly s s := ⟨s.ports, rfl, List.prefix_rfl⟩

theorem PortsOnly.trans {s u t : State} (hsu : PortsOnly s u) (hut : PortsOnly u t) : PortsOnly s t := by
  obtain ⟨p, rfl, hp⟩ := hsu
  obtain ⟨q, rfl, hq⟩ := hut
  exact ⟨q, rfl, hp.trans hq⟩

theorem PortsOnly.mode {s t : State} (h : PortsOnly s t) : t.mode = s.mode := by
  obtain ⟨p, rfl, -⟩ := h
  rfl

theorem portsOnly_of_blockTurn {s s' : State} (h : BlockTurn s s') : PortsOnly s s' := by
  rcases h with ⟨-, rfl⟩ | ⟨rest, -, rfl⟩
  · exact PortsOnly.refl _
  · exact ⟨{ s.ports with env := rest }, rfl, List.prefix_rfl⟩

/-- Outside the command loop, with no reset to come, a step is the boot step or the outside agents' own (R199 to R201). -/
theorem step_outside_cases {s t : State} (hm : s.mode ≠ .cmdLoop) (hrst : NoReset s) (h : step s = .next t) :
    (s.mode = .reset ∧ ∃ s', BlockTurn s s' ∧ t = stepBoot s') ∨ PortsOnly s t := by
  rcases step_cases h with ⟨s', hturn, hblock⟩ | ⟨b, rest, -, rfl⟩ | ⟨l, rest, henv, -⟩ | ⟨rest, -, rfl⟩ |
    ⟨v, rest, -, rfl⟩ | ⟨v, rest, -, rfl⟩
  · have hmode : s'.mode = s.mode := by rw [(blockTurn_frame hturn).1]
    rcases blockStep_cases hblock with ⟨hreset, rfl⟩ | ⟨hloop, -⟩ | ⟨hloop, -⟩ | ⟨-, rfl⟩
    · exact .inl ⟨hmode ▸ hreset, s', hturn, rfl⟩
    · exact absurd (hmode ▸ hloop) hm
    · exact absurd (hmode ▸ hloop) hm
    · exact .inr (portsOnly_of_blockTurn hturn)
  · exact .inr ⟨{ s.ports with rx := s.rx ++ [b], env := rest }, rfl, List.prefix_append ..⟩
  · exact absurd (henv ▸ List.mem_cons_self) (hrst l)
  · rw [stepRxTimeout_of_disabled (s := { s with env := rest }) (.inr (.inl hm))]
    exact .inr ⟨{ s.ports with env := rest }, rfl, List.prefix_rfl⟩
  · exact .inr ⟨{ s.ports with env := rest, bootSel := v }, rfl, List.prefix_rfl⟩
  · exact .inr ⟨{ s.ports with env := rest, initOk := v }, rfl, List.prefix_rfl⟩

/-- R199, R200: in a terminal mode every step but a reset is the outside agents' own. -/
theorem step_terminal_portsOnly {s t : State} (hm : s.mode = .appJump ∨ s.mode = .halt) (hrst : NoReset s)
    (h : step s = .next t) : PortsOnly s t := by
  have hloop : s.mode ≠ .cmdLoop := by rcases hm with hm | hm <;> simp [hm]
  have hreset : s.mode ≠ .reset := by rcases hm with hm | hm <;> simp [hm]
  rcases step_outside_cases hloop hrst h with ⟨hboot, -⟩ | hports
  · exact absurd hboot hreset
  · exact hports

/-- From `s` to `t` nothing was pushed to `tx` and nothing consumed from `rx`. -/
def Silent (s t : State) : Prop := t.tx = s.tx ∧ s.rx <+: t.rx

theorem Silent.trans {s u t : State} (hsu : Silent s u) (hut : Silent u t) : Silent s t :=
  ⟨hut.1.trans hsu.1, hsu.2.trans hut.2⟩

theorem PortsOnly.silent {s t : State} (h : PortsOnly s t) : Silent s t := by
  obtain ⟨p, rfl, hp⟩ := h
  exact ⟨rfl, hp⟩

/-- R201 and I7 of R44 for one step: the boot step too leaves both streams alone. -/
theorem step_outside_silent {s t : State} (hm : s.mode ≠ .cmdLoop) (hrst : NoReset s) (h : step s = .next t) :
    Silent s t := by
  rcases step_outside_cases hm hrst h with ⟨-, s', hturn, rfl⟩ | hports
  · have hboot : Silent s' (stepBoot s') := ⟨stepBoot_tx s', by rw [stepBoot_rx]⟩
    exact (portsOnly_of_blockTurn hturn).silent.trans hboot
  · exact hports.silent

/-! ## Runs without `rst` -/

theorem NoReset.step {s t : State} (hrst : NoReset s) (h : step s = .next t) : NoReset t := by
  intro l hl
  rw [(step_frame h).2.1] at hl
  exact hrst l (List.mem_of_mem_tail hl)

/-- A relation that holds of every state and itself, and that a step without `rst` extends at the front, holds along
every run without `rst`. -/
theorem runs_induction_of_noReset {R : State → State → Prop} (hrefl : ∀ s, R s s)
    (hstep : ∀ s u t, NoReset s → step s = .next u → R u t → R s t) {n : Nat} {s t : State} (hrst : NoReset s)
    (h : runs n s = .next t) : R s t := by
  induction n generalizing s with
  | zero =>
    obtain rfl := Host.Outcome.next.inj h
    exact hrefl s
  | succ n ih =>
    rw [runs_succ] at h
    obtain ⟨u, hu, hruns⟩ := andThen_eq_next.mp h
    exact hstep s u t hrst hu (ih (hrst.step hu) hruns)

/-- R199, R200: a run from a terminal mode is the outside agents' own. -/
theorem runs_terminal_portsOnly {n : Nat} {s t : State} (hm : s.mode = .appJump ∨ s.mode = .halt) (hrst : NoReset s)
    (h : runs n s = .next t) : PortsOnly s t := by
  refine runs_induction_of_noReset (R := fun s t => (s.mode = .appJump ∨ s.mode = .halt) → PortsOnly s t)
    (fun s _ => PortsOnly.refl s) (fun s u t hrst hu hut hm => ?_) hrst h hm
  have hsu : PortsOnly s u := step_terminal_portsOnly hm hrst hu
  exact hsu.trans (hut (hsu.mode ▸ hm))

/-- R148: without `rst` the command loop is not left. -/
theorem step_keeps_cmdLoop {s t : State} (hm : s.mode = .cmdLoop) (hrst : NoReset s) (h : step s = .next t) :
    t.mode = .cmdLoop := by
  by_contra hne
  rcases Proofs.modeChangesOnlyByBootOrReset s t h (hm ▸ hne) with ⟨hreset, -⟩ | ⟨l, rest, henv, -⟩
  · exact absurd (hm.symm.trans hreset) (by decide)
  · exact hrst l (henv ▸ List.mem_cons_self)

/-- R201 and I7 of R44 for a run: as the command loop is not left, a run that ends outside it was never in it. -/
theorem runs_outside_silent {n : Nat} {s t : State} (hrst : NoReset s) (h : runs n s = .next t)
    (ht : t.mode ≠ .cmdLoop) : Silent s t := by
  refine (runs_induction_of_noReset (R := fun s t => t.mode ≠ .cmdLoop → s.mode ≠ .cmdLoop ∧ Silent s t)
    (fun s hs => ⟨hs, rfl, List.prefix_rfl⟩) (fun s u t hrst hu hut ht => ?_) hrst h ht).2
  obtain ⟨hu', hsilent⟩ := hut ht
  have hs : s.mode ≠ .cmdLoop := fun hm => hu' (step_keeps_cmdLoop hm hrst hu)
  exact ⟨hs, (step_outside_silent hs hrst hu).trans hsilent⟩

end Sys2Proof.Machine
end

section
/-! PROOFS of the family `44_boot_handoff.md`: its obligations settled. -/

namespace Sys2Proof.Proofs

open Sys2Proof.Machine

/-- Settles O8: the outside agents write none of what the statement names but `rx`, and there they append. -/
theorem terminalModesAreInert : Obligations.TerminalModesAreInert := by
  intro n s t hm hrst h
  obtain ⟨p, rfl, hp⟩ := runs_terminal_portsOnly hm hrst h
  exact ⟨rfl, rfl, rfl, rfl, rfl, rfl, rfl, hp⟩

/-- Settles O9: each step of a run that ends outside the command loop is a silent one. -/
theorem nothingSentOutsideCommandLoop : Obligations.NothingSentOutsideCommandLoop :=
  fun _ _ _ _ hrst h ht => runs_outside_silent hrst h ht

/-- Settles O54: the four outcomes of the boot step are the rows of the table, and no other step of the block reads the
level. -/
theorem bootDecisionFollowsTable : Obligations.BootDecisionFollowsTable := by
  refine ⟨fun s s' hturn hm => ⟨stepBoot s', step_of_turn_reset hturn hm, ?_⟩, fun s t v henv hm h => ?_⟩
  · rcases stepBoot_cases s' with ⟨hi, e⟩ | ⟨hi, hb, e⟩ | ⟨hi, hb, hv, e⟩ | ⟨hi, hb, hv, e⟩
    · simp [e, hi]
    · simp [e, hi, hb]
    · simp [e, hi, hb, hv]
    · simp [e, hi, hb, hv]
  · rw [step_of_blockTurn (.inl ⟨henv, rfl⟩)] at h
    exact (step_of_blockTurn (s := { s with bootSel := v }) (.inl ⟨henv, rfl⟩)).trans (blockStep_withBootSel v hm h)

/-- Settles O3: the test of `init_ok` comes before everything else. -/
theorem bootWithoutInitHalts : Obligations.BootWithoutInitHalts := by
  intro s s' hturn hm hi
  rw [step_of_turn_reset hturn hm, stepBoot_of_init_failed hi]
  rfl

/-- Settles O4: the boot step arms the reader, and before it the invariants keep the receive registers idle. -/
theorem bootAssertedEntersCommandLoop : Obligations.BootAssertedEntersCommandLoop := by
  intro s s' hturn hm hi hb
  refine ⟨stepBoot s', step_of_turn_reset hturn hm, stepBoot_of_asserted hi hb, fun hinv => ?_⟩
  have hinv' : Inv s' := inv_of_blockTurn hturn hinv
  have hidle : Idle s' := hinv'.outside (by simp [hm])
  rw [stepBoot_of_asserted hi hb]
  exact ⟨⟨rfl, hidle.2⟩, hinv'.crc⟩

/-- Settles O5: the default range is all of the word's values; the two reads and the hand-off follow in order. -/
theorem bootDeassertedHandsOff : Obligations.BootDeassertedHandsOff := by
  refine ⟨fun sp => ?_, fun s s' hturn hm hi hb hv => ?_⟩
  · have hlt : sp.toNat ≤ 0xFFFFFFFF := Nat.le_of_lt_succ sp.isLt
    simp [Config.spValid, Config.default, hlt]
  · rw [step_of_turn_reset hturn hm, stepBoot_of_accepted hi hb hv]
    rfl

/-- Settles O6: the check stands between the two reads. -/
theorem bootRejectedStackPointerHalts : Obligations.BootRejectedStackPointerHalts := by
  intro s s' hturn hm hi hb hv
  rw [step_of_turn_reset hturn hm, stepBoot_of_rejected hi hb hv]
  rfl

end Sys2Proof.Proofs
end

section
/-! PROOFS of the family `60_exceptions.md`: its obligation settled. -/

namespace Sys2Proof.Proofs

open Sys2Proof.Machine

/-- Settles O34: each row's policy is the cause's `response`, which decides the reply and the label; the last two rows
are those of the boot step. -/
theorem everyCauseFollowsItsRow : Obligations.EveryCauseFollowsItsRow := by
  refine fun s => ⟨fun c r hrow => ?_, fun c hc => ?_⟩
  · have hpolicy : r = c.response s.cfg ∧ c ≠ .init ∧ c ≠ .badSp := by
      cases c <;> simp_all [Cause.response]
    obtain ⟨rfl, hc⟩ := hpolicy
    exact rearm_raise s hc
  · obtain rfl | rfl : c = .init ∨ c = .badSp := by simpa using hc
    · rfl
    · rfl

end Sys2Proof.Proofs
end

section
/-! PROOFS of the family `70_reset_and_hazards.md`: the labels a step of the block leaves on the trace (R36, R261), and
when no step of it is enabled. -/

namespace Sys2Proof.Machine

/-! ## When the block can only wait -/

/-- R105, R199, R200: the three waits. -/
theorem enabledStep_eq_none_iff (s : State) :
    enabledStep s = none ↔ (s.mode = .cmdLoop ∧ s.rx = []) ∨ s.mode = .appJump ∨ s.mode = .halt := by
  cases hm : s.mode with
  | reset => simp [enabledStep, hm]
  | cmdLoop =>
    cases hrx : s.rx with
    | nil => simp [enabledStep, hm, hrx]
    | cons b rest =>
      cases hf : s.fsm with
      | waitLen => by_cases hcap : b.toNat + 1 ≤ Config.rxCap <;> simp [enabledStep, hm, hrx, hf, hcap]
      | recv => simp [enabledStep, hm, hrx, hf]
      | drain => simp [enabledStep, hm, hrx, hf]
  | appJump => simp [enabledStep, hm]
  | halt => simp [enabledStep, hm]

/-- A wait is not a fault: the block's step with none enabled changes nothing (log 8). -/
theorem blockStep_of_not_enabled {s : State} (h : enabledStep s = none) : blockStep s = .next s := by
  rcases (enabledStep_eq_none_iff s).mp h with ⟨hm, hrx⟩ | hterminal
  · exact blockStep_of_empty hm hrx
  · exact blockStep_of_terminal hterminal

/-! ## An enabled step leaves a label -/

/-- The trace of `t` is longer than that of `s`. -/
def LongerTrace (s t : State) : Prop := s.trace.length < t.trace.length

theorem longerTrace_of_label {s t : State} {e : Event} (h : t.trace = s.trace ++ [e]) : LongerTrace s t := by
  rw [LongerTrace, h, List.length_append]
  exact Nat.lt_succ_self _

theorem rearm_raise_longerTrace {c : Cause} (s : State) (hc : c ≠ .init ∧ c ≠ .badSp) :
    LongerTrace s (rearm (raise c s)) := by
  rw [rearm_raise s hc]
  exact longerTrace_of_label rfl

theorem exec_longerTrace {i : Instr} {s t : State} (h : exec i s = .next t) : LongerTrace s t := by
  rw [exec_cases h]
  exact longerTrace_of_label rfl

/-- Every completion ends in the label of a rejection or of a command (R212). -/
theorem completePacket_longerTrace {s t : State} (h : completePacket s = .next t) : LongerTrace s t := by
  rcases completePacket_cases h with ⟨-, rfl⟩ | ⟨-, f, -, ⟨-, rfl⟩ | ⟨-, u, hu, rfl⟩⟩
  · exact rearm_raise_longerTrace s (by simp)
  · exact (rearm_raise_longerTrace (c := .crc) { s with crcAcc := s.cfg.crcInit } (by simp) :)
  · exact (exec_longerTrace hu :)

/-- Every byte taken leaves its own label, `EV_LEN` or `EV_BYTE`, and the label of the packet it ends after that. -/
theorem readByte_longerTrace {b : Byte} {s t : State} (h : readByte b s = .next t) : LongerTrace s t := by
  rcases readByte_cases h with ⟨-, -, -, rfl⟩ | ⟨-, -, hp⟩ | ⟨-, -, rfl⟩ | ⟨-, -, -, rfl⟩ | ⟨-, -, -, hp⟩ |
    ⟨-, -, rfl⟩ | ⟨-, -, rfl⟩
  · exact longerTrace_of_label rfl
  · exact Nat.lt_trans (longerTrace_of_label rfl) (completePacket_longerTrace hp)
  · exact longerTrace_of_label rfl
  · exact longerTrace_of_label rfl
  · exact Nat.lt_trans (longerTrace_of_label rfl) (completePacket_longerTrace hp)
  · exact longerTrace_of_label rfl
  · exact Nat.lt_trans (longerTrace_of_label rfl) (rearm_raise_longerTrace _ (by simp))

theorem stepBoot_longerTrace (s : State) : LongerTrace s (stepBoot s) := by
  rcases stepBoot_cases s with ⟨-, e⟩ | ⟨-, -, e⟩ | ⟨-, -, -, e⟩ | ⟨-, -, -, e⟩ <;> rw [e] <;>
    exact longerTrace_of_label rfl

/-- R261: of what the block's step can do, only the waits leave no label, and in those no step is enabled. -/
theorem blockStep_longerTrace {s t : State} (hen : enabledStep s ≠ none) (h : blockStep s = .next t) :
    LongerTrace s t := by
  rcases blockStep_cases h with ⟨-, rfl⟩ | ⟨hm, hrx, -⟩ | ⟨-, b, rest, -, hb⟩ | ⟨hm, -⟩
  · exact stepBoot_longerTrace s
  · exact absurd ((enabledStep_eq_none_iff s).mpr (.inl ⟨hm, hrx⟩)) hen
  · exact (readByte_longerTrace hb :)
  · exact absurd ((enabledStep_eq_none_iff s).mpr (.inr hm)) hen

end Sys2Proof.Machine

namespace Sys2Proof.Proofs

open Sys2Proof.Machine

/-- Settles O56: the invariants keep the enabled step off each stop, and every enabled step leaves a label. -/
theorem enabledStepIsTaken : Obligations.EnabledStepIsTaken := by
  intro s s' hinv hwf hturn
  rw [step_of_blockTurn hturn]
  refine ⟨fun hen => ?_, blockStep_of_not_enabled⟩
  have hcfg : s'.cfg = s.cfg := by rw [(blockTurn_frame hturn).1]
  obtain ⟨t, ht⟩ := blockStep_next (inv_of_blockTurn hturn hinv) (hcfg ▸ supportedCmds_length_of_wf hwf)
  exact ⟨t, ht, blockStep_longerTrace hen ht⟩

/-- Settles O1: the block writes its registers and the label, then the environment chooses its inputs; what neither
writes stays. Field by field this is the simp set of `resetBlock` and `applyLaunch`. -/
theorem resetEventWritesTheBlock : Obligations.ResetEventWritesTheBlock := by
  intro s l rest henv
  refine ⟨applyLaunch l (resetBlock { s with env := rest }), step_of_event henv, ?_⟩
  simp

end Sys2Proof.Proofs
end
